-- ==== Sys2Proof/Word.lean ====
section
/-! DEFINITION. The words the chip deals in (00_scope.md R9: unsigned, bit 0 least significant). -/

namespace Sys2Proof

/-- The unit of every access (20_memory.md R55). -/
abbrev Byte := BitVec 8

/-- The control register, the video counter and a CPU bus address (10_state.md R20, 20_memory.md R50). -/
abbrev Word := BitVec 16

/-- A sub-divider, or the low stage of the counter (10_state.md R34, R35). -/
abbrev Nibble := BitVec 4

/-- A control offset, 0 to 31 (30_encoding.md R81). -/
abbrev ControlOffset := BitVec 5

/-- The argument of an address request, OFFS_W = 32 bits (30_encoding.md R86). -/
abbrev RequestOffset := BitVec 32

end Sys2Proof
end

