-- ==== Sys2Proof/Config.lean ====
section
/-! DEFINITION. What is fixed outside the chip: the parameters an instance is attached with (00_scope.md R7),
the spec's open parameters (R8), the free values (R11, `draw`), and the values State.reset takes for them. -/

namespace Sys2Proof

/-- The five legal capacities of the backing RAM (10_state.md R31). -/
inductive RamCap where
  | k4 | k8 | k16 | k32 | k64
deriving DecidableEq, Repr

/-- RAMCAP in bytes (10_state.md R31). -/
def RamCap.bytes : RamCap → Nat
  | .k4 => 4096
  | .k8 => 8192
  | .k16 => 16384
  | .k32 => 32768
  | .k64 => 65536

/-- Bytes by offset. Canonical form: offsets strictly rising (Memory.wf in Machine/Ops.lean);
an offset that is not listed holds no known byte (log entry 9). -/
abbrev Memory := List Host.Cell

/-- The host binding (44_host_binding.md R211, R212): slot 0's bytes by RAM offset, and the bytes of
slots 1 to 3 by ROM-region offset. The I/O and reserved slots hold nothing: their reads are draws. -/
structure HostBinding where
  ram : Memory
  rom : Memory
deriving DecidableEq, Repr

/-- The spec's two OPEN parameters: VECTOR_SRC, the ROM-region offset that 0xFFE0 mirrors
(41_memory_view.md R145), and SLOT_BOUNDS, the region offset at which slots 2, 3 (ROM) and 5, 6, 7 (I/O)
begin (41_memory_view.md R156); slots 1 and 4 begin at region offset 0 (log entry 11). -/
structure Wiring where
  vectorSrc : Nat
  romSlot2 : Nat
  romSlot3 : Nat
  ioSlot5 : Nat
  ioSlot6 : Nat
  ioSlot7 : Nat
deriving DecidableEq, Repr

/-- PRESUMED: the spec's general-knowledge defaults of R145 and R156 (unsafe, log entry 11). -/
def Config.wiring : Wiring :=
  { vectorSrc := 0x3FE0, romSlot2 := 0x2000, romSlot3 := 0x4000, ioSlot5 := 0x20, ioSlot6 := 0x40, ioSlot7 := 0x60 }

/-- The free value `draw(byte)` (00_scope.md R11): the byte of the n-th draw, under no law (log entry 8). -/
opaque Config.freeByte : Nat → Byte

/-- DESIGN CHOICE: the capacity of the instance after reset (unsafe, log entry 4). -/
def Config.ramCap : RamCap := .k64

/-- DESIGN CHOICE: the base clock of the instance after reset, in Hz (unsafe, log entry 4). -/
def Config.baseClk : Rat := 14318180

/-- DESIGN CHOICE: the divider of the instance after reset (unsafe, log entry 4). -/
def Config.divider : Nat := 4

end Sys2Proof
end

