-- ==== Sys2Proof/Syntax.lean ====
section
/-! DEFINITION. The closed list of operations (30_encoding.md R80) and the calls of the interface that carry them
(44_host_binding.md R217). -/

namespace Sys2Proof

/-- The persisted state as the host holds it, the sub-dividers as bytes (10_state.md R20, R42). -/
structure Persisted where
  reg : Word
  endc : Bool
  counter : Word
  xdiv : Byte
  ydiv : Byte
deriving DecidableEq, Repr

/-- A call into the chip with its argument bits, before decoding (44_host_binding.md R217): what the external
scheduler delivers. These are the formats CW, CR and BUS (a bus write, a bus read), VA, HS, ED and ADM of
30_encoding.md, and the host's restore (10_state.md R42). -/
inductive Request where
  | busWrite (address : Word) (datum : Byte)
  | busRead (address : Word)
  | addressRequest (offset : RequestOffset)
  | horizontalSync (level : BitVec 1)
  | externalDisable (state : BitVec 1)
  | attach (ramCap : Nat) (baseClk : Rat) (divider : Nat) (host : HostBinding)
  | reset
  | restore (saved : Persisted)
deriving DecidableEq, Repr

/-- The 43 operations, one constructor per row of spec/opcode_table.json. -/
inductive Instr where
  /-- `CLR.V0` (40_control_write.md R102). -/
  | clrV0
  /-- `SET.V0` (40_control_write.md R103). -/
  | setV0
  /-- `CLR.V1` (40_control_write.md R104). -/
  | clrV1
  /-- `SET.V1` (40_control_write.md R105). -/
  | setV1
  /-- `CLR.V2` (40_control_write.md R106). -/
  | clrV2
  /-- `SET.V2` (40_control_write.md R107). -/
  | setV2
  /-- `CLR.F0` (40_control_write.md R108). -/
  | clrF0
  /-- `SET.F0` (40_control_write.md R109). -/
  | setF0
  /-- `CLR.F1` (40_control_write.md R110). -/
  | clrF1
  /-- `SET.F1` (40_control_write.md R111). -/
  | setF1
  /-- `CLR.F2` (40_control_write.md R112). -/
  | clrF2
  /-- `SET.F2` (40_control_write.md R113). -/
  | setF2
  /-- `CLR.F3` (40_control_write.md R114). -/
  | clrF3
  /-- `SET.F3` (40_control_write.md R115). -/
  | setF3
  /-- `CLR.F4` (40_control_write.md R116). -/
  | clrF4
  /-- `SET.F4` (40_control_write.md R117). -/
  | setF4
  /-- `CLR.F5` (40_control_write.md R118). -/
  | clrF5
  /-- `SET.F5` (40_control_write.md R119). -/
  | setF5
  /-- `CLR.F6` (40_control_write.md R120). -/
  | clrF6
  /-- `SET.F6` (40_control_write.md R121). -/
  | setF6
  /-- `CLR.P1` (40_control_write.md R122). -/
  | clrP1
  /-- `SET.P1` (40_control_write.md R123). -/
  | setP1
  /-- `CLR.R0` (40_control_write.md R124). -/
  | clrR0
  /-- `SET.R0` (40_control_write.md R125). -/
  | setR0
  /-- `CLR.R1` (40_control_write.md R126). -/
  | clrR1
  /-- `SET.R1` (40_control_write.md R127). -/
  | setR1
  /-- `CLR.M0` (40_control_write.md R128). -/
  | clrM0
  /-- `SET.M0` (40_control_write.md R129). -/
  | setM0
  /-- `CLR.M1` (40_control_write.md R130). -/
  | clrM1
  /-- `SET.M1` (40_control_write.md R131). -/
  | setM1
  /-- `CLR.TY` (40_control_write.md R132). -/
  | clrTY
  /-- `SET.TY` (40_control_write.md R133). -/
  | setTY
  /-- `CTRL.RD o` (40_control_write.md R135). -/
  | ctrlRd (o : ControlOffset)
  /-- `BUS.RD a` (41_memory_view.md R150). -/
  | busRd (a : Word)
  /-- `BUS.WR a, d` (41_memory_view.md R151). -/
  | busWr (a : Word) (d : Byte)
  /-- `ENDC.SET` (41_memory_view.md R152). -/
  | endcSet
  /-- `ENDC.CLR` (41_memory_view.md R153). -/
  | endcClr
  /-- `VREQ.RESTART` (43_video_address.md R181). -/
  | vreqRestart
  /-- `VREQ d`, d the low bit of the offset (43_video_address.md R182). -/
  | vreq (d : BitVec 1)
  /-- `HS.RISE` (43_video_address.md R185). -/
  | hsRise
  /-- `HS.FALL` (43_video_address.md R187). -/
  | hsFall
  /-- `ATTACH RAMCAP, BASECLK, DIVIDER, host` (44_host_binding.md R214). -/
  | attach (ramCap : Nat) (baseClk : Rat) (divider : Nat) (host : HostBinding)
  /-- `RESET` (44_host_binding.md R215). -/
  | reset
deriving DecidableEq, Repr

end Sys2Proof
end

