-- ==== Sys2Proof/Decode.lean ====
section
/-! DEFINITION. From a call to an operation and back (30_encoding.md). Decoding is total: format CW and the
others have no illegal encoding (R90); only the host's restore, which is no operation of R80, is rejected. -/

namespace Sys2Proof

/-- Why a call is no operation. -/
inductive DecodeError where
  /-- The host's restore of persisted state is not in the closed list of operations (30_encoding.md R80). -/
  | restoreIsNoOperation
deriving DecidableEq, Repr

/-- RESTART, the sentinel offset, all ones (30_encoding.md R86). -/
def restartOffset : RequestOffset := 0xFFFFFFFF#32

/-- CTRL_BASE, the bus address of control offset 0 (20_memory.md R53). -/
def ctrlBase : Word := 0xFFC0#16

/-- The bus address of a control offset (30_encoding.md R83). -/
def controlAddress (o : ControlOffset) : Word := ctrlBase + o.setWidth 16

/-- The bus address lies in 0xFFC0-0xFFDF: a[15:5] is 0b11111111110 (30_encoding.md R95). -/
def inControlRange (a : Word) : Bool := a.extractLsb' 5 11 == 0b11111111110#11

/-- The control write at each control offset (30_encoding.md R83). -/
def controlInstr (o : ControlOffset) : Instr :=
  match o.toNat with
  | 0 => .clrV0
  | 1 => .setV0
  | 2 => .clrV1
  | 3 => .setV1
  | 4 => .clrV2
  | 5 => .setV2
  | 6 => .clrF0
  | 7 => .setF0
  | 8 => .clrF1
  | 9 => .setF1
  | 10 => .clrF2
  | 11 => .setF2
  | 12 => .clrF3
  | 13 => .setF3
  | 14 => .clrF4
  | 15 => .setF4
  | 16 => .clrF5
  | 17 => .setF5
  | 18 => .clrF6
  | 19 => .setF6
  | 20 => .clrP1
  | 21 => .setP1
  | 22 => .clrR0
  | 23 => .setR0
  | 24 => .clrR1
  | 25 => .setR1
  | 26 => .clrM0
  | 27 => .setM0
  | 28 => .clrM1
  | 29 => .setM1
  | 30 => .clrTY
  | _ => .setTY

/-- The operation a call stands for (30_encoding.md R81 to R89, R95). -/
def decode : Request → Except DecodeError Instr
  | .busWrite a d => .ok (if inControlRange a then controlInstr (a.extractLsb' 0 5) else .busWr a d)
  | .busRead a => .ok (if inControlRange a then .ctrlRd (a.extractLsb' 0 5) else .busRd a)
  | .addressRequest offset => .ok (if offset = restartOffset then .vreqRestart else .vreq (offset.extractLsb' 0 1))
  | .horizontalSync level => .ok (if level = 1#1 then .hsRise else .hsFall)
  | .externalDisable state => .ok (if state = 1#1 then .endcSet else .endcClr)
  | .attach ramCap baseClk divider host => .ok (.attach ramCap baseClk divider host)
  | .reset => .ok .reset
  | .restore _ => .error .restoreIsNoOperation

/-- A control write as the CPU issues it, the ignored datum written as zero (30_encoding.md R81, R83). -/
def encodeControl (o : ControlOffset) : Request := .busWrite (controlAddress o) 0#8

/-- The call that carries an operation, every ignored bit written as zero (30_encoding.md R81 to R89). -/
def encode : Instr → Request
  | .clrV0 => encodeControl 0#5
  | .setV0 => encodeControl 1#5
  | .clrV1 => encodeControl 2#5
  | .setV1 => encodeControl 3#5
  | .clrV2 => encodeControl 4#5
  | .setV2 => encodeControl 5#5
  | .clrF0 => encodeControl 6#5
  | .setF0 => encodeControl 7#5
  | .clrF1 => encodeControl 8#5
  | .setF1 => encodeControl 9#5
  | .clrF2 => encodeControl 10#5
  | .setF2 => encodeControl 11#5
  | .clrF3 => encodeControl 12#5
  | .setF3 => encodeControl 13#5
  | .clrF4 => encodeControl 14#5
  | .setF4 => encodeControl 15#5
  | .clrF5 => encodeControl 16#5
  | .setF5 => encodeControl 17#5
  | .clrF6 => encodeControl 18#5
  | .setF6 => encodeControl 19#5
  | .clrP1 => encodeControl 20#5
  | .setP1 => encodeControl 21#5
  | .clrR0 => encodeControl 22#5
  | .setR0 => encodeControl 23#5
  | .clrR1 => encodeControl 24#5
  | .setR1 => encodeControl 25#5
  | .clrM0 => encodeControl 26#5
  | .setM0 => encodeControl 27#5
  | .clrM1 => encodeControl 28#5
  | .setM1 => encodeControl 29#5
  | .clrTY => encodeControl 30#5
  | .setTY => encodeControl 31#5
  | .ctrlRd o => .busRead (controlAddress o)
  | .busRd a => .busRead a
  | .busWr a d => .busWrite a d
  | .endcSet => .externalDisable 1#1
  | .endcClr => .externalDisable 0#1
  | .vreqRestart => .addressRequest restartOffset
  | .vreq d => .addressRequest (d.setWidth 32)
  | .hsRise => .horizontalSync 1#1
  | .hsFall => .horizontalSync 0#1
  | .attach ramCap baseClk divider host => .attach ramCap baseClk divider host
  | .reset => .reset

/-- A call with its ignored bits cleared: the datum of a control write (30_encoding.md R81) and, for an offset
that is not the sentinel, all bits but bit 0 (R86). -/
def Request.canonical : Request → Request
  | .busWrite a d => .busWrite a (if inControlRange a then 0#8 else d)
  | .addressRequest offset =>
    .addressRequest (if offset = restartOffset then offset else (offset.extractLsb' 0 1).setWidth 32)
  | r => r

/-- The call whose argument bits are `w`, from a row's width in spec/opcode_table.json (log entry 3). The table
does not say which signal a word belongs to: 5 bits (8 in whole bytes) are a control offset, 16 the address of a
bus read, 32 the offset of an address request, 1 the level of the external-disable line, 0 the call `RESET`. -/
def tableRequest (nbits w : Nat) : Option Request :=
  match nbits with
  | 0 => if w = 0 then some .reset else none
  | 1 => if w < 2 then some (.externalDisable (BitVec.ofNat 1 w)) else none
  | 5 | 8 => if w < 32 then some (encodeControl (BitVec.ofNat 5 w)) else none
  | 16 => if w < 0x10000 then some (.busRead (BitVec.ofNat 16 w)) else none
  | 32 => if w < 0x100000000 then some (.addressRequest (BitVec.ofNat 32 w)) else none
  | _ => none

/-- The operation the decoder reads from a word of the opcode table. -/
def decodeTableWord (nbits w : Nat) : Option Instr :=
  match tableRequest nbits w with
  | some r => (decode r).toOption
  | none => none

/-- The control write that gives bit `b` of the register the value `v` (30_encoding.md R82). -/
def writeBit (b : BitVec 4) (v : Bool) : Instr := controlInstr (b ++ BitVec.ofBool v)

/-- `LOADV m` (30_encoding.md R94). -/
def loadV (m : BitVec 3) : List Instr :=
  [writeBit 0 (m.getLsbD 0), writeBit 1 (m.getLsbD 1), writeBit 2 (m.getLsbD 2)]

/-- `LOADF f` (30_encoding.md R94). -/
def loadF (f : BitVec 7) : List Instr :=
  [writeBit 3 (f.getLsbD 0), writeBit 4 (f.getLsbD 1), writeBit 5 (f.getLsbD 2), writeBit 6 (f.getLsbD 3),
   writeBit 7 (f.getLsbD 4), writeBit 8 (f.getLsbD 5), writeBit 9 (f.getLsbD 6)]

/-- `LOADM m` (30_encoding.md R94). -/
def loadM (m : BitVec 2) : List Instr :=
  [writeBit 13 (m.getLsbD 0), writeBit 14 (m.getLsbD 1)]

/-- `LOADREG v` (30_encoding.md R94): all sixteen bits, in ascending order. -/
def loadReg (v : Word) : List Instr :=
  (List.range 16).map fun b => writeBit (BitVec.ofNat 4 b) (v.getLsbD b)

end Sys2Proof
end

