-- ==== Sys2Proof/WellFormed.lean ====
section
/-! DEFINITION. Which operations are well-formed. Only the bus accesses have a condition: their address lies
outside the control range (30_encoding.md R85). -/

namespace Sys2Proof

/-- An operation of the closed list with operands its format admits (30_encoding.md R85). -/
def Instr.wf : Instr → Bool
  | .busRd a => !inControlRange a
  | .busWr a _ => !inControlRange a
  | _ => true

end Sys2Proof
end

