-- ==== Sys2Proof/Machine/State.lean ====
section
/-! DEFINITION. What the machine holds (10_state.md), as plain data, and what a step can end in. -/

namespace Sys2Proof.Machine

/-- The five RAM-bank views (41_memory_view.md R140, R141). -/
inductive RamView where
  | ram4K | ram16K | ram64KDynamic | ram64KStatic | ramPaged
deriving DecidableEq, Repr

/-- What is visible on the bus (41_memory_view.md R140). -/
inductive ViewSelection where
  | suppressed
  | active (ram : RamView) (rom : Bool) (io : Bool)
deriving DecidableEq, Repr

/-- What answers a bus address, with the region offset (41_memory_view.md R147). -/
inductive Target where
  | ram (off : Nat)
  | rom (off : Nat)
  | io (off : Nat)
  | unmapped
deriving DecidableEq, Repr

/-- A clock as the exact quotient base / divisor (42_clock.md R170, which recommends carrying the divisor). -/
structure ClockRate where
  base : Rat
  divisor : Nat
deriving DecidableEq, Repr

/-- What the chip gives out: values returned and calls to the host (00_scope.md R14). -/
inductive Output where
  /-- the change mask a control write returns (40_control_write.md R100) -/
  | changeMask (m : Word)
  /-- `emit Install(view)` (44_host_binding.md R213) -/
  | install (v : ViewSelection)
  /-- `emit ClockUpdate(c)` (42_clock.md R172) -/
  | clockUpdate (c : ClockRate)
  /-- `SlotRead(s, off)`, the question (44_host_binding.md R212) -/
  | slotRead (slot : Fin 8) (off : Nat)
  /-- `SlotWrite(s, off, v)` (44_host_binding.md R212) -/
  | slotWrite (slot : Fin 8) (off : Nat) (v : Byte)
  /-- the byte an operation returns (41_memory_view.md R150, 43_video_address.md R192, 40_control_write.md R135) -/
  | byte (b : Byte)
deriving DecidableEq, Repr

/-- The chip (10_state.md R20), the parameters it is attached with (00_scope.md R7, R8), and the model's own
`pending`, `outputs` and `draws` (log entries 1, 6 and 8). -/
structure State where
  /-- control register (10_state.md R21) -/
  reg : Word
  /-- external-disable flag (10_state.md R32) -/
  endc : Bool
  /-- video address counter (10_state.md R33) -/
  counter : Word
  /-- sub-divider of the carry out of bit 3 (10_state.md R34) -/
  xdiv : Nibble
  /-- sub-divider of the carry out of bit 4 (10_state.md R35) -/
  ydiv : Nibble
  /-- RAMCAP (00_scope.md R7) -/
  ramCap : RamCap
  /-- BASECLK in Hz (00_scope.md R7) -/
  baseClk : Rat
  /-- DIVIDER (00_scope.md R7) -/
  divider : Nat
  /-- the host binding (44_host_binding.md R211) -/
  host : HostBinding
  /-- VECTOR_SRC and SLOT_BOUNDS (00_scope.md R8) -/
  wiring : Wiring
  /-- calls the external scheduler still has to deliver, oldest first -/
  pending : List Request
  /-- what the chip has given out, oldest first -/
  outputs : List Output
  /-- how many free values have been drawn -/
  draws : Nat
deriving DecidableEq, Repr

/-- How the chip dies: the two fatal error kinds (60_exceptions.md R225). -/
inductive Fault where
  /-- E1, raised by ATTACH on a capacity outside the five, with the offending capacity (60_exceptions.md R226).
  Safe: the chip cannot start. -/
  | configurationError (capacity : Nat)
  /-- E2, a video mode outside 0..7 (60_exceptions.md R227). Raised by nothing: the mode has three bits. Safe. -/
  | invalidVideoMode (mode : Nat)
deriving DecidableEq, Repr

/-- What the model gives no next state for. -/
inductive Refusal where
  /-- An operation with no meaning in this model. Safe. Raised by no arm. -/
  | notModelled (mnemonic : String)
  /-- ATTACH with DIVIDER = 0 or BASECLK <= 0, against its preconditions (93_implementation_defined.md U6). Safe. -/
  | attachPrecondition
  /-- A call that is no operation, raised by the step. Safe. No run reaches it: the one such call, the host's
  restore, is carried out before decoding. -/
  | noOperation (e : DecodeError)
deriving DecidableEq, Repr

/-- The three outcomes of an operation. -/
abbrev Result := Host.Outcome State Fault Refusal

/-- The state right after reset (10_state.md R40, 70_reset_and_hazards.md R250), of the instance whose parameters
log entry 4 names. RESET has announced the view and the clock (44_host_binding.md R215, log entry 7). -/
def State.reset : State :=
  { reg := 0x0000#16
    endc := false
    counter := 0x0000#16
    xdiv := 0#4
    ydiv := 0#4
    ramCap := Config.ramCap
    baseClk := Config.baseClk
    divider := Config.divider
    host := { ram := [], rom := [] }
    wiring := Config.wiring
    pending := []
    outputs := [.install (.active .ram4K true true), .clockUpdate { base := Config.baseClk, divisor := Config.divider * 4 }]
    draws := 0 }

end Sys2Proof.Machine
end

