-- ==== Sys2Proof/Machine/Ops.lean ====
section
/-! DEFINITION. The named operations over memory, the state and the host's slots that the meanings share. -/

namespace Sys2Proof.Machine

/-- What an offset that is not listed reads as: no byte (93_implementation_defined.md U13, log entry 9). -/
def Memory.unlisted : Option Byte := none

/-- The byte at an offset. -/
def Memory.read : Memory → Nat → Option Byte
  | [], _ => Memory.unlisted
  | (k, b) :: m, off => if k = off then some b else Memory.read m off

/-- The memory with one byte written, in the canonical order. -/
def Memory.write : Memory → Nat → Byte → Memory
  | [], off, v => [(off, v)]
  | (k, b) :: m, off, v =>
    if off < k then (off, v) :: (k, b) :: m
    else if off = k then (off, v) :: m
    else (k, b) :: Memory.write m off v

/-- Every listed offset is above `lo`. -/
def Memory.above (lo : Nat) (m : Memory) : Bool := m.all fun c => decide (lo < c.1)

/-- Every listed offset is below `bound`. -/
def Memory.below (bound : Nat) (m : Memory) : Bool := m.all fun c => decide (c.1 < bound)

/-- The canonical form: offsets strictly rising. No entry can equal what an unlisted offset reads as, since that
is no byte. -/
def Memory.wf : Memory → Bool
  | [] => true
  | (k, _) :: m => Memory.above k m && Memory.wf m

/-- The canonical memory of the listed cells below `bound`; of two cells at one offset the first counts
(log entry 5). -/
def Memory.ofCells (bound : Nat) : Memory → Memory
  | [] => []
  | (k, b) :: m => if k < bound then Memory.write (Memory.ofCells bound m) k b else Memory.ofCells bound m

/-- One past the last ROM-region offset (20_memory.md R50). -/
def romRegionSize : Nat := 0x7F00

/-- `reg <- v` (00_scope.md R10). -/
def State.setReg (v : Word) (s : State) : State := { s with reg := v }

/-- `endc <- v`. -/
def State.setEndc (v : Bool) (s : State) : State := { s with endc := v }

/-- `counter <- v`. -/
def State.setCounter (v : Word) (s : State) : State := { s with counter := v }

/-- `xdiv <- v`. -/
def State.setXdiv (v : Nibble) (s : State) : State := { s with xdiv := v }

/-- `ydiv <- v`. -/
def State.setYdiv (v : Nibble) (s : State) : State := { s with ydiv := v }

/-- Slot 0's bytes replaced. -/
def State.setRam (m : Memory) (s : State) : State := { s with host := { s.host with ram := m } }

/-- The parameters of 00_scope.md R7 fixed. -/
def State.setParams (ramCap : RamCap) (baseClk : Rat) (divider : Nat) (host : HostBinding) (s : State) : State :=
  { s with ramCap := ramCap, baseClk := baseClk, divider := divider, host := host }

/-- The calls still to be delivered. -/
def State.setPending (rs : List Request) (s : State) : State := { s with pending := rs }

/-- `emit` and `return`: one more output (00_scope.md R14). -/
def State.emit (o : Output) (s : State) : State := { s with outputs := s.outputs ++ [o] }

/-- One more free value drawn. -/
def State.countDraw (s : State) : State := { s with draws := s.draws + 1 }

/-- `draw(byte)` (00_scope.md R11). -/
def draw (s : State) : Byte × State := (Config.freeByte s.draws, s.countDraw)

/-- The known byte a host slot holds at a region offset (44_host_binding.md R212): slot 0 by `host.ram`, slots 1
to 3 by `host.rom`, the I/O and reserved slots none. -/
def slotByte (slot : Fin 8) (off : Nat) (s : State) : Option Byte :=
  if slot.val = 0 then Memory.read s.host.ram off
  else if slot.val ≤ 3 then Memory.read s.host.rom off
  else none

/-- `SlotRead(slot, off)` (44_host_binding.md R212): the known byte, else a draw. -/
def readSlot (slot : Fin 8) (off : Nat) (s : State) : Byte × State :=
  match slotByte slot off s with
  | some b => (b, s.emit (.slotRead slot off))
  | none => draw (s.emit (.slotRead slot off))

/-- `SlotWrite(slot, off, v)` (44_host_binding.md R212): slot 0 is an array that the write updates, the ROM array
is immutable, a device keeps nothing the model knows (log entry 10). -/
def writeSlot (slot : Fin 8) (off : Nat) (v : Byte) (s : State) : State :=
  if slot.val = 0 then (s.emit (.slotWrite slot off v)).setRam (Memory.write s.host.ram off v)
  else s.emit (.slotWrite slot off v)

/-- The operation returns a byte. -/
def answer (r : Byte × State) : Result := .next (r.2.emit (.byte r.1))

/-- `raise` (00_scope.md R12): fatal, nothing is saved, there is no handler (60_exceptions.md R232). -/
def raise (e : Fault) : Result := .fault e

end Sys2Proof.Machine
end

