-- ==== Sys2Proof/Machine/Operands.lean ====
section
/-! DEFINITION. The parts of a control offset (30_encoding.md R82) and the fields of the control register
(10_state.md R22). -/

namespace Sys2Proof.Machine

/-- `bitIndex = o[4:1]`, used as the bit number of `reg` (30_encoding.md R82). -/
def bitIndex (o : ControlOffset) : Nat := (o.extractLsb' 1 4).toNat

/-- `S = o[0]`: set when true, clear when false (30_encoding.md R82). -/
def setSense (o : ControlOffset) : Bool := o.getLsbD 0

/-- The bit mask `1 << bitIndex` (30_encoding.md R82). -/
def bitMask (o : ControlOffset) : Word := 1#16 <<< bitIndex o

/-- `reg.TY` (10_state.md R22). -/
def fieldTY (r : Word) : Bool := r.getLsbD 15

/-- `reg.M`, M1 high (10_state.md R22). -/
def fieldM (r : Word) : BitVec 2 := r.extractLsb' 13 2

/-- `reg.R1` (10_state.md R22). -/
def fieldR1 (r : Word) : Bool := r.getLsbD 12

/-- `reg.R0` (10_state.md R22). -/
def fieldR0 (r : Word) : Bool := r.getLsbD 11

/-- `reg.P1` (10_state.md R22). -/
def fieldP1 (r : Word) : Bool := r.getLsbD 10

/-- `reg.F`, F6 high (10_state.md R22). -/
def fieldF (r : Word) : BitVec 7 := r.extractLsb' 3 7

/-- `reg.V`, V2 high (10_state.md R22). -/
def fieldV (r : Word) : BitVec 3 := r.extractLsb' 0 3

/-- `display_offset() = zext_16(reg.F) << 9` (10_state.md R27). -/
def displayOffset (r : Word) : Word := (fieldF r).setWidth 16 <<< 9

end Sys2Proof.Machine
end

