-- ==== Sys2Proof/Machine/Flags.lean ====
section
/-! DEFINITION. The transient conditions of one step. The chip has no condition flags: a change mask and a carry
are events inside a step (10_state.md R38, 43_video_address.md R180). -/

namespace Sys2Proof.Machine

/-- The register after `alter(o)` (40_control_write.md R100). -/
def alterReg (o : ControlOffset) (r : Word) : Word :=
  if setSense o then r ||| bitMask o else r &&& ~~~ (bitMask o)

/-- The change mask, `oldValue XOR newValue` (40_control_write.md R100). -/
def changeMask (o : ControlOffset) (r : Word) : Word := r ^^^ alterReg o r

/-- The bits the Memory View Selector reacts to, TY, M1, M0 and P1 (40_control_write.md R134). -/
def viewBits : Word := 0xE400#16

/-- The bits the Clock Controller reacts to, R1 and R0 (40_control_write.md R134). -/
def clockBits : Word := 0x1800#16

/-- A mask that shares a bit with another. -/
def touches (m bits : Word) : Bool := m &&& bits != 0#16

/-- The nibble is 0xF, so that its increment wraps (43_video_address.md R182). -/
def nibbleWraps (c : Word) : Bool := c.extractLsb' 0 4 == 0xF#4

/-- `counter[15:4] ++ ((counter[3:0] + 1) mod 16)` (43_video_address.md R182). -/
def advanceNibble (c : Word) : Word := c.extractLsb' 4 12 ++ (c.extractLsb' 0 4 + 1#4)

end Sys2Proof.Machine
end

