-- ==== Sys2Proof/Machine/Clock.lean ====
section
/-! DEFINITION. The Clock Controller (42_clock.md). It has no operation of its own. -/

namespace Sys2Proof.Machine

/-- `cpu_divisor(divider, R0)` (42_clock.md R170). -/
def cpuDivisor (divider : Nat) (r0 : Bool) : Nat := divider * (if r0 then 2 else 4)

/-- `effectiveClock(baseClock, divider, R1, R0)`; R1 is not used (42_clock.md R170, R171). -/
def effectiveClock (baseClk : Rat) (divider : Nat) (_r1 r0 : Bool) : ClockRate :=
  { base := baseClk, divisor := cpuDivisor divider r0 }

/-- The frequency in Hz, exact (42_clock.md R170). -/
def ClockRate.hz (c : ClockRate) : Rat := c.base / (c.divisor : Rat)

/-- The chip's clock output, a function of the state (10_state.md R37). -/
def clock (s : State) : ClockRate := effectiveClock s.baseClk s.divider (fieldR1 s.reg) (fieldR0 s.reg)

/-- `emit ClockUpdate` of the current clock (42_clock.md R172). -/
def announceClock (s : State) : State := s.emit (.clockUpdate (clock s))

end Sys2Proof.Machine
end

