-- ==== Sys2Proof/Machine/MemoryView.lean ====
section
/-! DEFINITION. The Memory View Selector, the bus accesses and the external-disable operations
(41_memory_view.md). -/

namespace Sys2Proof.Machine

/-- The RAM-bank view that M1:M0 and P1 select (41_memory_view.md R140). -/
def ramView (reg : Word) : RamView :=
  match (fieldM reg).toNat with
  | 0 => .ram4K
  | 1 => .ram16K
  | 2 => if fieldP1 reg then .ramPaged else .ram64KDynamic
  | _ => if fieldP1 reg then .ramPaged else .ram64KStatic

/-- `recompute(reg, RAMCAP, endc)`; RAMCAP does not change which view is selected (41_memory_view.md R140). -/
def recompute (reg : Word) (_ramCap : RamCap) (endc : Bool) : ViewSelection :=
  if endc then .suppressed else .active (ramView reg) (!fieldTY reg) true

/-- The active view, a function of the state (10_state.md R37). -/
def view (s : State) : ViewSelection := recompute s.reg s.ramCap s.endc

/-- `emit Install` of the current view (44_host_binding.md R213). -/
def announceView (s : State) : State := s.emit (.install (view s))

/-- `properly_configured(RAMCAP, mode)` (10_state.md R31): it names a condition and changes no behaviour. -/
def properlyConfigured (cap : RamCap) (mode : BitVec 2) : Bool :=
  match mode.toNat, cap with
  | 0, .k4 => true
  | 0, .k8 => true
  | 1, .k16 => true
  | 1, .k32 => true
  | 2, .k32 => true
  | 2, .k64 => true
  | 3, .k64 => true
  | _, _ => false

/-- The RAM offset the RAM view gives a bus address, before the clamp (41_memory_view.md R141, R143, R147). -/
def ramOffset (reg : Word) (n : Nat) : Option Nat :=
  match (fieldM reg).toNat with
  | 0 => if n ≤ 0x0FFF then some n else none
  | 1 => if n ≤ 0x3FFF then some n else none
  | _ => if fieldP1 reg && decide (n < 0x8000) then some (n + 0x8000) else some n

/-- A RAM offset is served only below RAMCAP (41_memory_view.md R146). -/
def clampRam (cap : RamCap) : Option Nat → Target
  | some off => if off < cap.bytes then .ram off else .unmapped
  | none => .unmapped

/-- `decode(a)` of 41_memory_view.md R147, the tests in its order of priority. The control range never reaches it
(30_encoding.md R95); the line that names it makes the function say so (log entry 17). -/
def busDecode (a : Word) (s : State) : Target :=
  if s.endc then .unmapped
  else if 0xFFE0 ≤ a.toNat then .rom (s.wiring.vectorSrc + (a.toNat - 0xFFE0))
  else if 0xFFC0 ≤ a.toNat then .unmapped
  else if 0xFF00 ≤ a.toNat then .io (a.toNat - 0xFF00)
  else if 0x8000 ≤ a.toNat ∧ fieldTY s.reg = false then .rom (a.toNat - 0x8000)
  else clampRam s.ramCap (ramOffset s.reg a.toNat)

/-- The ROM sub-slot of a ROM-region offset (41_memory_view.md R156). -/
def slotOfRom (w : Wiring) (off : Nat) : Fin 8 :=
  if off < w.romSlot2 then 1 else if off < w.romSlot3 then 2 else 3

/-- The I/O sub-slot, or the reserved slot, of an I/O-region offset (41_memory_view.md R156). -/
def slotOfIo (w : Wiring) (off : Nat) : Fin 8 :=
  if off < w.ioSlot5 then 4 else if off < w.ioSlot6 then 5 else if off < w.ioSlot7 then 6 else 7

/-- `BUS.RD a` (41_memory_view.md R150). -/
def execBusRd (a : Word) (s : State) : Result :=
  match busDecode a s with
  | .ram off => answer (readSlot 0 off s)
  | .rom off => answer (readSlot (slotOfRom s.wiring off) off s)
  | .io off => answer (readSlot (slotOfIo s.wiring off) off s)
  | .unmapped => answer (draw s)

/-- `BUS.WR a, d` (41_memory_view.md R151). -/
def execBusWr (a : Word) (d : Byte) (s : State) : Result :=
  match busDecode a s with
  | .ram off => .next (writeSlot 0 off d s)
  | .rom off => .next (writeSlot (slotOfRom s.wiring off) off d s)
  | .io off => .next (writeSlot (slotOfIo s.wiring off) off d s)
  | .unmapped => .next s

/-- `endc <- v`, and Install when that changes it (41_memory_view.md R152, R153). -/
def setEndcLine (v : Bool) (s : State) : State :=
  if s.endc = v then s else announceView (s.setEndc v)

/-- `ENDC.SET` (41_memory_view.md R152). -/
def execEndcSet (s : State) : Result := .next (setEndcLine true s)

/-- `ENDC.CLR` (41_memory_view.md R153). -/
def execEndcClr (s : State) : Result := .next (setEndcLine false s)

end Sys2Proof.Machine
end

