-- ==== Sys2Proof/Machine/ControlWrite.lean ====
section
/-! DEFINITION. The Bit-Alteration Decoder: the 32 control writes and the control read (40_control_write.md). -/

namespace Sys2Proof.Machine

/-- `alter(o)`: the register changed, the change mask returned (40_control_write.md R100). -/
def alter (o : ControlOffset) (s : State) : State :=
  (s.setReg (alterReg o s.reg)).emit (.changeMask (changeMask o s.reg))

/-- The Memory View Selector's reaction to a change mask (40_control_write.md R134). -/
def reactView (m : Word) (s : State) : State := if touches m viewBits then announceView s else s

/-- The Clock Controller's reaction to a change mask (40_control_write.md R134, 42_clock.md R172). -/
def reactClock (m : Word) (s : State) : State := if touches m clockBits then announceClock s else s

/-- `ControlWrite(o)`: the register first, then the view, then the clock (40_control_write.md R134,
60_exceptions.md R231). -/
def controlWrite (o : ControlOffset) (s : State) : Result :=
  .next (reactClock (changeMask o s.reg) (reactView (changeMask o s.reg) (alter o s)))

/-- `CLR.V0` (40_control_write.md R102). -/
def execClrV0 (s : State) : Result := controlWrite 0#5 s

/-- `SET.V0` (40_control_write.md R103). -/
def execSetV0 (s : State) : Result := controlWrite 1#5 s

/-- `CLR.V1` (40_control_write.md R104). -/
def execClrV1 (s : State) : Result := controlWrite 2#5 s

/-- `SET.V1` (40_control_write.md R105). -/
def execSetV1 (s : State) : Result := controlWrite 3#5 s

/-- `CLR.V2` (40_control_write.md R106). -/
def execClrV2 (s : State) : Result := controlWrite 4#5 s

/-- `SET.V2` (40_control_write.md R107). -/
def execSetV2 (s : State) : Result := controlWrite 5#5 s

/-- `CLR.F0` (40_control_write.md R108). -/
def execClrF0 (s : State) : Result := controlWrite 6#5 s

/-- `SET.F0` (40_control_write.md R109). -/
def execSetF0 (s : State) : Result := controlWrite 7#5 s

/-- `CLR.F1` (40_control_write.md R110). -/
def execClrF1 (s : State) : Result := controlWrite 8#5 s

/-- `SET.F1` (40_control_write.md R111). -/
def execSetF1 (s : State) : Result := controlWrite 9#5 s

/-- `CLR.F2` (40_control_write.md R112). -/
def execClrF2 (s : State) : Result := controlWrite 10#5 s

/-- `SET.F2` (40_control_write.md R113). -/
def execSetF2 (s : State) : Result := controlWrite 11#5 s

/-- `CLR.F3` (40_control_write.md R114). -/
def execClrF3 (s : State) : Result := controlWrite 12#5 s

/-- `SET.F3` (40_control_write.md R115). -/
def execSetF3 (s : State) : Result := controlWrite 13#5 s

/-- `CLR.F4` (40_control_write.md R116). -/
def execClrF4 (s : State) : Result := controlWrite 14#5 s

/-- `SET.F4` (40_control_write.md R117). -/
def execSetF4 (s : State) : Result := controlWrite 15#5 s

/-- `CLR.F5` (40_control_write.md R118). -/
def execClrF5 (s : State) : Result := controlWrite 16#5 s

/-- `SET.F5` (40_control_write.md R119). -/
def execSetF5 (s : State) : Result := controlWrite 17#5 s

/-- `CLR.F6` (40_control_write.md R120). -/
def execClrF6 (s : State) : Result := controlWrite 18#5 s

/-- `SET.F6` (40_control_write.md R121). -/
def execSetF6 (s : State) : Result := controlWrite 19#5 s

/-- `CLR.P1` (40_control_write.md R122). -/
def execClrP1 (s : State) : Result := controlWrite 20#5 s

/-- `SET.P1` (40_control_write.md R123). -/
def execSetP1 (s : State) : Result := controlWrite 21#5 s

/-- `CLR.R0` (40_control_write.md R124). -/
def execClrR0 (s : State) : Result := controlWrite 22#5 s

/-- `SET.R0` (40_control_write.md R125). -/
def execSetR0 (s : State) : Result := controlWrite 23#5 s

/-- `CLR.R1` (40_control_write.md R126). -/
def execClrR1 (s : State) : Result := controlWrite 24#5 s

/-- `SET.R1` (40_control_write.md R127). -/
def execSetR1 (s : State) : Result := controlWrite 25#5 s

/-- `CLR.M0` (40_control_write.md R128). -/
def execClrM0 (s : State) : Result := controlWrite 26#5 s

/-- `SET.M0` (40_control_write.md R129). -/
def execSetM0 (s : State) : Result := controlWrite 27#5 s

/-- `CLR.M1` (40_control_write.md R130). -/
def execClrM1 (s : State) : Result := controlWrite 28#5 s

/-- `SET.M1` (40_control_write.md R131). -/
def execSetM1 (s : State) : Result := controlWrite 29#5 s

/-- `CLR.TY` (40_control_write.md R132). -/
def execClrTY (s : State) : Result := controlWrite 30#5 s

/-- `SET.TY` (40_control_write.md R133). -/
def execSetTY (s : State) : Result := controlWrite 31#5 s

/-- `CTRL.RD o`: a draw, whatever the offset (40_control_write.md R135). -/
def execCtrlRd (_o : ControlOffset) (s : State) : Result := answer (draw s)

end Sys2Proof.Machine
end

