-- ==== Sys2Proof/Machine/HostBinding.lean ====
section
/-! DEFINITION. Attach, reset, save and restore (44_host_binding.md). -/

namespace Sys2Proof.Machine

/-- The capacity check of ATTACH (44_host_binding.md R214, 60_exceptions.md R226). -/
def legalCapacity (n : Nat) : Option RamCap :=
  if n = 4096 then some .k4
  else if n = 8192 then some .k8
  else if n = 16384 then some .k16
  else if n = 32768 then some .k32
  else if n = 65536 then some .k64
  else none

/-- The view and the clock recomputed and announced (44_host_binding.md R215, R216). -/
def announce (s : State) : State := announceClock (announceView s)

/-- Chip reset; `endc` and the host's bytes are left alone (44_host_binding.md R215). -/
def resetChip (s : State) : State :=
  announce ((((s.setReg 0x0000#16).setCounter 0x0000#16).setXdiv 0#4).setYdiv 0#4)

/-- The binding as slot arrays: RAMCAP bytes of RAM, the ROM region, in canonical form (44_host_binding.md R212,
log entry 5). -/
def bindHost (cap : RamCap) (host : HostBinding) : HostBinding :=
  { ram := Memory.ofCells cap.bytes host.ram, rom := Memory.ofCells romRegionSize host.rom }

/-- `ATTACH` (44_host_binding.md R214): the capacity check before everything else (60_exceptions.md R231), then
the preconditions (93_implementation_defined.md U6). -/
def execAttach (ramCap : Nat) (baseClk : Rat) (divider : Nat) (host : HostBinding) (s : State) : Result :=
  match legalCapacity ramCap with
  | none => raise (.configurationError ramCap)
  | some cap =>
    if 0 < divider ∧ 0 < baseClk then
      .next (resetChip ((s.setParams cap baseClk divider (bindHost cap host)).setEndc false))
    else .refused .attachPrecondition

/-- `RESET` (44_host_binding.md R215). -/
def execReset (s : State) : Result := .next (resetChip s)

/-- What the host saves (10_state.md R20, R42). -/
def save (s : State) : Persisted :=
  { reg := s.reg, endc := s.endc, counter := s.counter, xdiv := s.xdiv.setWidth 8, ydiv := s.ydiv.setWidth 8 }

/-- A host restore: the five elements loaded, the sub-dividers modulo 16, view and clock announced
(10_state.md R42, 44_host_binding.md R216). -/
def restore (p : Persisted) (s : State) : State :=
  announce (((((s.setReg p.reg).setEndc p.endc).setCounter p.counter).setXdiv (p.xdiv.setWidth 4)).setYdiv
    (p.ydiv.setWidth 4))

end Sys2Proof.Machine
end

