-- ==== Sys2Proof/Machine/VideoAddress.lean ====
section
/-! DEFINITION. The Video Address Generator (43_video_address.md). -/

namespace Sys2Proof.Machine

/-- `XT[reg.V]`, the x threshold (43_video_address.md R190). -/
def xThreshold (v : BitVec 3) : Nibble :=
  match v.toNat with
  | 0 => 1#4
  | 1 => 3#4
  | 2 => 1#4
  | 3 => 2#4
  | 4 => 1#4
  | 5 => 1#4
  | 6 => 1#4
  | _ => 1#4

/-- `YT[reg.V]`, the y threshold (43_video_address.md R190). -/
def yThreshold (v : BitVec 3) : Nibble :=
  match v.toNat with
  | 0 => 12#4
  | 1 => 1#4
  | 2 => 3#4
  | 3 => 1#4
  | 4 => 2#4
  | 5 => 1#4
  | 6 => 1#4
  | _ => 1#4

/-- The sub-divider `d` after one more carry reaches the threshold `t`: `>=` after the increment modulo 16
(43_video_address.md R191). -/
def reaches (d t : Nibble) : Bool := decide (t ≤ d + 1#4)

/-- carry4 handling (43_video_address.md R189). -/
def carry4 (s : State) : State :=
  if reaches s.ydiv (yThreshold (fieldV s.reg)) then (s.setYdiv 0#4).setCounter (s.counter + 0x0020#16)
  else s.setYdiv (s.ydiv + 1#4)

/-- carry3 handling (43_video_address.md R188): the toggle of bit 4, and carry4 when it took the bit from 1 to 0. -/
def carry3 (s : State) : State :=
  if reaches s.xdiv (xThreshold (fieldV s.reg)) then
    if s.counter.getLsbD 4 then carry4 ((s.setXdiv 0#4).setCounter (s.counter ^^^ 0x0010#16))
    else (s.setXdiv 0#4).setCounter (s.counter ^^^ 0x0010#16)
  else s.setXdiv (s.xdiv + 1#4)

/-- W, the window size of the memory-size mode (43_video_address.md R192). -/
def windowSize (m : BitVec 2) : Nat :=
  match m.toNat with
  | 0 => 0x1000
  | 1 => 0x4000
  | _ => 0x10000

/-- `video_mask()` (43_video_address.md R192). -/
def videoMask (s : State) : Word := BitVec.ofNat 16 (min (windowSize (fieldM s.reg)) s.ramCap.bytes - 1)

/-- `video_read()` (43_video_address.md R192, R193): a draw under endc, else slot 0 at the masked counter. -/
def videoRead (s : State) : Byte × State :=
  if s.endc then draw s else readSlot 0 (s.counter &&& videoMask s).toNat s

/-- The counter after `VREQ(d)` (43_video_address.md R182). -/
def stepCounter (d : BitVec 1) (s : State) : State :=
  if d = s.counter.extractLsb' 0 1 then s
  else if nibbleWraps s.counter then carry3 (s.setCounter (advanceNibble s.counter))
  else s.setCounter (advanceNibble s.counter)

/-- `counter <- display_offset(); xdiv <- 0; ydiv <- 0` (43_video_address.md R181). -/
def restartCounter (s : State) : State :=
  ((s.setCounter (displayOffset s.reg)).setXdiv 0#4).setYdiv 0#4

/-- The sync of modes 1, 3, 5: bits 3..0 cleared, then carry3 when bit 3 was set (43_video_address.md R185). -/
def syncOdd (s : State) : State :=
  if s.counter.getLsbD 3 then carry3 (s.setCounter (s.counter &&& 0xFFF0#16))
  else s.setCounter (s.counter &&& 0xFFF0#16)

/-- The sync of modes 0, 2, 4, 6: bits 4..0 cleared, then carry4 when bit 4 was set (43_video_address.md R185). -/
def syncEven (s : State) : State :=
  if s.counter.getLsbD 4 then carry4 (s.setCounter (s.counter &&& 0xFFE0#16))
  else s.setCounter (s.counter &&& 0xFFE0#16)

/-- The counter after `HS.RISE`, by video mode (43_video_address.md R186). -/
def syncCounter (s : State) : State :=
  match (fieldV s.reg).toNat with
  | 0 => syncEven s
  | 1 => syncOdd s
  | 2 => syncEven s
  | 3 => syncOdd s
  | 4 => syncEven s
  | 5 => syncOdd s
  | 6 => syncEven s
  | _ => s

/-- `VREQ.RESTART` (43_video_address.md R181). -/
def execVreqRestart (s : State) : Result := answer (videoRead (restartCounter s))

/-- `VREQ d` (43_video_address.md R182): the byte is read after the update. -/
def execVreq (d : BitVec 1) (s : State) : Result := answer (videoRead (stepCounter d s))

/-- `HS.RISE` (43_video_address.md R185). -/
def execHsRise (s : State) : Result := .next (syncCounter s)

/-- `HS.FALL`: nothing (43_video_address.md R187). -/
def execHsFall (s : State) : Result := .next s

end Sys2Proof.Machine
end

