-- ==== Sys2Proof/Machine/Dispatch.lean ====
section
/-! DEFINITION. One arm per operation of 30_encoding.md R80. -/

namespace Sys2Proof.Machine

def exec (i : Instr) (s : State) : Host.Outcome State Fault Refusal :=
  match i with
  | .clrV0 => Sys2Proof.Machine.execClrV0 s
  | .setV0 => Sys2Proof.Machine.execSetV0 s
  | .clrV1 => Sys2Proof.Machine.execClrV1 s
  | .setV1 => Sys2Proof.Machine.execSetV1 s
  | .clrV2 => Sys2Proof.Machine.execClrV2 s
  | .setV2 => Sys2Proof.Machine.execSetV2 s
  | .clrF0 => Sys2Proof.Machine.execClrF0 s
  | .setF0 => Sys2Proof.Machine.execSetF0 s
  | .clrF1 => Sys2Proof.Machine.execClrF1 s
  | .setF1 => Sys2Proof.Machine.execSetF1 s
  | .clrF2 => Sys2Proof.Machine.execClrF2 s
  | .setF2 => Sys2Proof.Machine.execSetF2 s
  | .clrF3 => Sys2Proof.Machine.execClrF3 s
  | .setF3 => Sys2Proof.Machine.execSetF3 s
  | .clrF4 => Sys2Proof.Machine.execClrF4 s
  | .setF4 => Sys2Proof.Machine.execSetF4 s
  | .clrF5 => Sys2Proof.Machine.execClrF5 s
  | .setF5 => Sys2Proof.Machine.execSetF5 s
  | .clrF6 => Sys2Proof.Machine.execClrF6 s
  | .setF6 => Sys2Proof.Machine.execSetF6 s
  | .clrP1 => Sys2Proof.Machine.execClrP1 s
  | .setP1 => Sys2Proof.Machine.execSetP1 s
  | .clrR0 => Sys2Proof.Machine.execClrR0 s
  | .setR0 => Sys2Proof.Machine.execSetR0 s
  | .clrR1 => Sys2Proof.Machine.execClrR1 s
  | .setR1 => Sys2Proof.Machine.execSetR1 s
  | .clrM0 => Sys2Proof.Machine.execClrM0 s
  | .setM0 => Sys2Proof.Machine.execSetM0 s
  | .clrM1 => Sys2Proof.Machine.execClrM1 s
  | .setM1 => Sys2Proof.Machine.execSetM1 s
  | .clrTY => Sys2Proof.Machine.execClrTY s
  | .setTY => Sys2Proof.Machine.execSetTY s
  | .ctrlRd o => Sys2Proof.Machine.execCtrlRd o s
  | .busRd a => Sys2Proof.Machine.execBusRd a s
  | .busWr a d => Sys2Proof.Machine.execBusWr a d s
  | .endcSet => Sys2Proof.Machine.execEndcSet s
  | .endcClr => Sys2Proof.Machine.execEndcClr s
  | .vreqRestart => Sys2Proof.Machine.execVreqRestart s
  | .vreq d => Sys2Proof.Machine.execVreq d s
  | .hsRise => Sys2Proof.Machine.execHsRise s
  | .hsFall => Sys2Proof.Machine.execHsFall s
  | .attach ramCap baseClk divider host => Sys2Proof.Machine.execAttach ramCap baseClk divider host s
  | .reset => Sys2Proof.Machine.execReset s

end Sys2Proof.Machine
end

