-- ==== Sys2Proof/Machine/Deliver.lean ====
section
/-! DEFINITION. Carrying out one call of the interface (44_host_binding.md R217). -/

namespace Sys2Proof.Machine

/-- Carries out one call: the host's restore directly, every other call through the decoder. -/
def deliver (r : Request) (s : State) : Result :=
  match r with
  | .restore p => .next (restore p s)
  | r =>
    match decode r with
    | .ok i => exec i s
    | .error e => .refused (.noOperation e)

end Sys2Proof.Machine
end

