-- ==== Sys2Proof/Machine/Step.lean ====
section
/-! DEFINITION. One step: the next call the external scheduler delivers is carried out whole (00_scope.md R13). -/

namespace Sys2Proof.Machine

/-- One step: the oldest pending call is taken and carried out; with none pending the chip does nothing
(10_state.md R29, log entry 1). -/
def step (s : State) : Host.Outcome State Fault Refusal :=
  match s.pending with
  | [] => .next s
  | r :: rs => deliver r (s.setPending rs)

/-- The call of a table word put in front of the pending ones, so that the very next step carries it out
(log entries 2 and 3). -/
def State.withFetchWord (s : State) (nbits w : Nat) : State :=
  match tableRequest nbits w with
  | some r => s.setPending (r :: s.pending)
  | none => s

end Sys2Proof.Machine
end

