-- ==== Sys2Proof/Safety.lean ====
section
/-! DEFINITION. The terms the claims use: the legal states, the sub-dividers' reachable ranges, what has been
announced to the host, and the outcome of a sequence of operations. -/

namespace Sys2Proof.Machine

/-- The legal states. The parameters are those of an ATTACH that succeeded (44_host_binding.md R214); the host's
arrays are canonical and hold no byte outside RAMCAP and the ROM region (R212); VECTOR_SRC and SLOT_BOUNDS are in
the ranges of 41_memory_view.md R145 and R156. -/
structure Legal (s : State) : Prop where
  divider_pos : 0 < s.divider
  baseClk_pos : 0 < s.baseClk
  ram_wf : Memory.wf s.host.ram = true
  ram_below : Memory.below s.ramCap.bytes s.host.ram = true
  rom_wf : Memory.wf s.host.rom = true
  rom_below : Memory.below romRegionSize s.host.rom = true
  vectorSrc_le : s.wiring.vectorSrc + 31 ≤ 0x7EFF
  romSlots : 0 < s.wiring.romSlot2 ∧ s.wiring.romSlot2 < s.wiring.romSlot3 ∧ s.wiring.romSlot3 ≤ 0x7EFF
  ioSlots : 0 < s.wiring.ioSlot5 ∧ s.wiring.ioSlot5 < s.wiring.ioSlot6 ∧ s.wiring.ioSlot6 < s.wiring.ioSlot7 ∧
    s.wiring.ioSlot7 ≤ 0xBF

/-- The ranges at which the sub-dividers rest (10_state.md R39). -/
def SubDividersInRange (s : State) : Prop := s.xdiv ≤ 2#4 ∧ s.ydiv ≤ 11#4

/-- The host was last told this view. -/
def lastInstall : List Output → Option ViewSelection
  | [] => none
  | o :: os =>
    match lastInstall os, o with
    | some v, _ => some v
    | none, .install v => some v
    | none, _ => none

/-- The host was last told this clock. -/
def lastClock : List Output → Option ClockRate
  | [] => none
  | o :: os =>
    match lastClock os, o with
    | some c, _ => some c
    | none, .clockUpdate c => some c
    | none, _ => none

/-- What the host was last told is what the current state gives (10_state.md R37, 42_clock.md R172). -/
def AnnouncedCurrent (s : State) : Prop :=
  lastInstall s.outputs = some (view s) ∧ lastClock s.outputs = some (clock s)

/-- The chip's five elements agree (10_state.md R20). -/
def SameChip (s t : State) : Prop :=
  s.reg = t.reg ∧ s.endc = t.endc ∧ s.counter = t.counter ∧ s.xdiv = t.xdiv ∧ s.ydiv = t.ydiv

/-- The parameters an instance is attached with agree (00_scope.md R7). -/
def SameParams (s t : State) : Prop :=
  s.ramCap = t.ramCap ∧ s.baseClk = t.baseClk ∧ s.divider = t.divider

/-- The control write `i` sets (`sense`) or clears the bits of `mask`, returns the change mask, and when the register
changed gives out `reaction` of the new state; nothing else changes (40_control_write.md R100, R134). -/
def WritesBit (i : Instr) (mask : Word) (sense : Bool) (reaction : State → List Output) : Prop :=
  ∀ s : State,
    let new := if sense then s.reg ||| mask else s.reg &&& ~~~ mask
    exec i s = .next { s with
      reg := new
      outputs := s.outputs ++ .changeMask (s.reg ^^^ new) :: (if new = s.reg then [] else reaction { s with reg := new }) }

/-- The RAM offset at which a view shows a bus address of its window, none outside it (41_memory_view.md R141,
R143). -/
def windowOffset (v : RamView) (n : Nat) : Option Nat :=
  match v with
  | .ram4K => if n < 0x1000 then some n else none
  | .ram16K => if n < 0x4000 then some n else none
  | .ram64KDynamic => some n
  | .ram64KStatic => some n
  | .ramPaged => some (if n < 0x8000 then n + 0x8000 else n)

/-- What answers a RAM offset: the RAM below RAMCAP, nothing at or above it (41_memory_view.md R146). -/
def served (cap : RamCap) (off : Nat) : Target := if off < cap.bytes then .ram off else .unmapped

/-- `n` address requests that all advance the counter from an even nibble: low bits 1, 0, 1, 0, ... -/
def togglingRequests : Nat → List Instr
  | 0 => []
  | n + 1 => togglingRequests n ++ [.vreq (BitVec.ofNat 1 (n + 1))]

/-- The operations in order, ending at the first that does not answer a next state. -/
def execAll : List Instr → State → Result
  | [], s => .next s
  | i :: is, s =>
    match exec i s with
    | .next t => execAll is t
    | .fault f => .fault f
    | .refused r => .refused r

end Sys2Proof.Machine
end

