-- ==== Sys2Proof/Certificates/Slice0/Obligations.lean ====
section
/-! DEFINITION. The statements for the provers. Each docstring says which part of the spec it formalises and where it
rests on the model's or the spec's own choice. -/

open Sys2Proof Sys2Proof.Machine

/-- Every well-formed operation survives encoding and decoding, with every operand at every value its format admits. -/
def Obligations.DecodeOfEncodeIsTheOperation : Prop :=
  ∀ i : Instr, i.wf = true → decode (encode i) = .ok i

/-- A call has one meaning: what it decodes to determines it, but for the bits the formats ignore (the datum of a
control write, bits 31..1 of an ordinary request offset). That the encoder writes those bits as zero is the model's
choice (log entry 21). -/
def Obligations.EncodeOfDecodeClearsIgnoredBits : Prop :=
  ∀ (r : Request) (i : Instr), decode r = .ok i → encode i = r.canonical

/-- No call traps on its encoding: every call but the host's restore decodes, to a well-formed operation. Restore is
no operation of the spec's closed list; that it is a call, rejected by that name, is log entry 20. -/
def Obligations.EveryCallButRestoreDecodes : Prop :=
  ∀ r : Request,
    (∃ p, r = .restore p ∧ decode r = .error .restoreIsNoOperation) ∨
    ((∀ p, r ≠ .restore p) ∧ ∃ i, decode r = .ok i ∧ i.wf = true)

/-- The opcode map of format CW, all 32 addresses, whatever the datum. The field names and the base 0xFFC0 are the spec's own decisions D1 and D3 (log entry 12). -/
def Obligations.ControlAddressTable : Prop :=
  ∀ d : Byte,
    decode (.busWrite 0xFFC0#16 d) = .ok .clrV0 ∧
    decode (.busWrite 0xFFC1#16 d) = .ok .setV0 ∧
    decode (.busWrite 0xFFC2#16 d) = .ok .clrV1 ∧
    decode (.busWrite 0xFFC3#16 d) = .ok .setV1 ∧
    decode (.busWrite 0xFFC4#16 d) = .ok .clrV2 ∧
    decode (.busWrite 0xFFC5#16 d) = .ok .setV2 ∧
    decode (.busWrite 0xFFC6#16 d) = .ok .clrF0 ∧
    decode (.busWrite 0xFFC7#16 d) = .ok .setF0 ∧
    decode (.busWrite 0xFFC8#16 d) = .ok .clrF1 ∧
    decode (.busWrite 0xFFC9#16 d) = .ok .setF1 ∧
    decode (.busWrite 0xFFCA#16 d) = .ok .clrF2 ∧
    decode (.busWrite 0xFFCB#16 d) = .ok .setF2 ∧
    decode (.busWrite 0xFFCC#16 d) = .ok .clrF3 ∧
    decode (.busWrite 0xFFCD#16 d) = .ok .setF3 ∧
    decode (.busWrite 0xFFCE#16 d) = .ok .clrF4 ∧
    decode (.busWrite 0xFFCF#16 d) = .ok .setF4 ∧
    decode (.busWrite 0xFFD0#16 d) = .ok .clrF5 ∧
    decode (.busWrite 0xFFD1#16 d) = .ok .setF5 ∧
    decode (.busWrite 0xFFD2#16 d) = .ok .clrF6 ∧
    decode (.busWrite 0xFFD3#16 d) = .ok .setF6 ∧
    decode (.busWrite 0xFFD4#16 d) = .ok .clrP1 ∧
    decode (.busWrite 0xFFD5#16 d) = .ok .setP1 ∧
    decode (.busWrite 0xFFD6#16 d) = .ok .clrR0 ∧
    decode (.busWrite 0xFFD7#16 d) = .ok .setR0 ∧
    decode (.busWrite 0xFFD8#16 d) = .ok .clrR1 ∧
    decode (.busWrite 0xFFD9#16 d) = .ok .setR1 ∧
    decode (.busWrite 0xFFDA#16 d) = .ok .clrM0 ∧
    decode (.busWrite 0xFFDB#16 d) = .ok .setM0 ∧
    decode (.busWrite 0xFFDC#16 d) = .ok .clrM1 ∧
    decode (.busWrite 0xFFDD#16 d) = .ok .setM1 ∧
    decode (.busWrite 0xFFDE#16 d) = .ok .clrTY ∧
    decode (.busWrite 0xFFDF#16 d) = .ok .setTY

/-- One word of each format, written out from the spec's encodings (D3 and D4 place the control range and the sentinel, log entry 12). -/
def Obligations.SampleWordsDecode : Prop :=
  decode (.busWrite 0b1111111111011101#16 0x5A#8) = .ok .setM1 ∧
  decode (.busRead 0b1111111111011111#16) = .ok (.ctrlRd 31#5) ∧
  decode (.busRead 0b0011111111111111#16) = .ok (.busRd 0x3FFF#16) ∧
  decode (.busWrite 0b0000000100100011#16 0xAB#8) = .ok (.busWr 0x0123#16 0xAB#8) ∧
  decode (.addressRequest 0b11111111111111111111111111111111#32) = .ok .vreqRestart ∧
  decode (.addressRequest 0b00000000000000000000000000000111#32) = .ok (.vreq 1#1) ∧
  decode (.horizontalSync 0b1#1) = .ok .hsRise ∧
  decode (.horizontalSync 0b0#1) = .ok .hsFall ∧
  decode (.externalDisable 0b1#1) = .ok .endcSet ∧
  decode (.externalDisable 0b0#1) = .ok .endcClr

/-- 0xFFC0 to 0xFFDF is the control range, whatever the state, endc included; every other address is an ordinary access. The base is D3, the independence of endc D11 (log entry 12). -/
def Obligations.BusAccessesAreClassifiedByAddress : Prop :=
  ∀ (a : Word) (d : Byte),
    (0xFFC0 ≤ a.toNat ∧ a.toNat ≤ 0xFFDF →
      decode (.busWrite a d) = .ok (controlInstr (BitVec.ofNat 5 (a.toNat - 0xFFC0))) ∧
      decode (.busRead a) = .ok (.ctrlRd (BitVec.ofNat 5 (a.toNat - 0xFFC0)))) ∧
    (a.toNat < 0xFFC0 ∨ 0xFFDF < a.toNat →
      decode (.busWrite a d) = .ok (.busWr a d) ∧ decode (.busRead a) = .ok (.busRd a))

/-- A step takes the oldest pending call and, when it decodes to an operation, is that operation's meaning on the
state without the call. The queue is the model's own (log entry 1). -/
def Obligations.StepRunsTheDecodedOperation : Prop :=
  ∀ (s : State) (r : Request) (rs : List Request) (i : Instr),
    s.pending = r :: rs → decode r = .ok i → step s = exec i { s with pending := rs }

/-- The model's choice (log entry 1) for a chip that reacts to delivered calls only: with none pending, nothing happens. -/
def Obligations.StepWithNothingPendingDoesNothing : Prop :=
  ∀ s : State, s.pending = [] → step s = .next s

/-- A restore loads the five elements, the sub-dividers modulo 16, and announces view and clock of the loaded values
(decision D24, log entry 12). That it is a call of the queue is log entries 1 and 20. -/
def Obligations.StepRestoresThePersistedState : Prop :=
  ∀ (s : State) (p : Persisted) (rs : List Request), s.pending = .restore p :: rs →
    step s = .next { s with
      reg := p.reg, endc := p.endc, counter := p.counter
      xdiv := BitVec.ofNat 4 (p.xdiv.toNat % 16), ydiv := BitVec.ofNat 4 (p.ydiv.toNat % 16)
      pending := rs
      outputs := s.outputs ++ [.install (recompute p.reg s.ramCap p.endc),
        .clockUpdate (effectiveClock s.baseClk s.divider (fieldR1 p.reg) (fieldR0 p.reg))] }

/-- `alter(o)` for each of the 32 control offsets: the register, the returned mask, and the frame. -/
def Obligations.AlterSetsOrClearsOneBit : Prop :=
  ∀ (o : ControlOffset) (s : State), ∃ (t : State) (more : List Output),
    exec (controlInstr o) s = .next t ∧
    t.reg = (if o.getLsbD 0 then s.reg ||| (1#16 <<< (o.toNat / 2)) else s.reg &&& ~~~ (1#16 <<< (o.toNat / 2))) ∧
    t.outputs = s.outputs ++ .changeMask (s.reg ^^^ t.reg) :: more ∧
    t = { s with reg := t.reg, outputs := t.outputs }

/-- The change mask is 1 << (o >> 1) exactly when the targeted bit held the opposite of the written sense, else 0; no
other bit of the register changes. That with mask 0 nothing reacts is D23 (log entry 12). -/
def Obligations.ChangeMaskIsTheTargetedBitOrZero : Prop :=
  ∀ (o : ControlOffset) (s : State), ∃ (t : State) (m : Word) (more : List Output),
    exec (controlInstr o) s = .next t ∧
    t.outputs = s.outputs ++ .changeMask m :: more ∧
    m = (if s.reg.getLsbD (o.toNat / 2) = o.getLsbD 0 then 0#16 else 1#16 <<< (o.toNat / 2)) ∧
    (m = 0#16 → more = []) ∧
    ∀ k, k ≠ o.toNat / 2 → t.reg.getLsbD k = s.reg.getLsbD k

/-- CLR.V0 to SET.V2: nothing reacts at the time of the write. The field names are D1, that no notification is given
out is D23 (log entry 12). -/
def Obligations.VideoModeWrites : Prop :=
  WritesBit .clrV0 0x0001#16 false (fun _ => []) ∧
  WritesBit .setV0 0x0001#16 true (fun _ => []) ∧
  WritesBit .clrV1 0x0002#16 false (fun _ => []) ∧
  WritesBit .setV1 0x0002#16 true (fun _ => []) ∧
  WritesBit .clrV2 0x0004#16 false (fun _ => []) ∧
  WritesBit .setV2 0x0004#16 true (fun _ => [])

/-- CLR.F0 to SET.F6: nothing reacts at the time of the write. The field names are D1, that no notification is given
out is D23 (log entry 12). -/
def Obligations.DisplayOffsetWrites : Prop :=
  WritesBit .clrF0 0x0008#16 false (fun _ => []) ∧
  WritesBit .setF0 0x0008#16 true (fun _ => []) ∧
  WritesBit .clrF1 0x0010#16 false (fun _ => []) ∧
  WritesBit .setF1 0x0010#16 true (fun _ => []) ∧
  WritesBit .clrF2 0x0020#16 false (fun _ => []) ∧
  WritesBit .setF2 0x0020#16 true (fun _ => []) ∧
  WritesBit .clrF3 0x0040#16 false (fun _ => []) ∧
  WritesBit .setF3 0x0040#16 true (fun _ => []) ∧
  WritesBit .clrF4 0x0080#16 false (fun _ => []) ∧
  WritesBit .setF4 0x0080#16 true (fun _ => []) ∧
  WritesBit .clrF5 0x0100#16 false (fun _ => []) ∧
  WritesBit .setF5 0x0100#16 true (fun _ => []) ∧
  WritesBit .clrF6 0x0200#16 false (fun _ => []) ∧
  WritesBit .setF6 0x0200#16 true (fun _ => [])

/-- The writes of P1, TY, M0 and M1: when the bit changed, Install of the view of the new register. The field names
are D1; that there is no Install when the bit did not change and exactly one when it did is D23 (log entry 12). -/
def Obligations.ViewWrites : Prop :=
  WritesBit .clrP1 0x0400#16 false (fun t => [.install (view t)]) ∧
  WritesBit .setP1 0x0400#16 true (fun t => [.install (view t)]) ∧
  WritesBit .clrTY 0x8000#16 false (fun t => [.install (view t)]) ∧
  WritesBit .setTY 0x8000#16 true (fun t => [.install (view t)]) ∧
  WritesBit .clrM0 0x2000#16 false (fun t => [.install (view t)]) ∧
  WritesBit .setM0 0x2000#16 true (fun t => [.install (view t)]) ∧
  WritesBit .clrM1 0x4000#16 false (fun t => [.install (view t)]) ∧
  WritesBit .setM1 0x4000#16 true (fun t => [.install (view t)])

/-- CLR.R0 to SET.R1: when the bit changed, ClockUpdate of the clock of the new register. The field names are D1; that
there is no ClockUpdate when the bit did not change and exactly one when it did is D23 (log entry 12). -/
def Obligations.RateWrites : Prop :=
  WritesBit .clrR0 0x0800#16 false (fun t => [.clockUpdate (clock t)]) ∧
  WritesBit .setR0 0x0800#16 true (fun t => [.clockUpdate (clock t)]) ∧
  WritesBit .clrR1 0x1000#16 false (fun t => [.clockUpdate (clock t)]) ∧
  WritesBit .setR1 0x1000#16 true (fun t => [.clockUpdate (clock t)])

/-- Setting then clearing a bit leaves it 0, clearing then setting leaves it 1; the two change masks are equal exactly when the bit ended where it started. -/
def Obligations.SetAndClearOfOneBit : Prop :=
  ∀ (b : BitVec 4) (v : Bool) (s : State), ∃ (t u : State) (m₁ m₂ : Word) (more₁ more₂ : List Output),
    exec (writeBit b v) s = .next t ∧ exec (writeBit b (!v)) t = .next u ∧
    t.outputs = s.outputs ++ .changeMask m₁ :: more₁ ∧ u.outputs = t.outputs ++ .changeMask m₂ :: more₂ ∧
    u.reg.getLsbD b.toNat = !v ∧
    (m₁ = m₂ ↔ s.reg.getLsbD b.toNat = !v) ∧
    (s.reg.getLsbD b.toNat = (!v) → u.reg = s.reg)

/-- Two control writes of different bits end in the same register in either order. -/
def Obligations.WritesOfDifferentBitsCommute : Prop :=
  ∀ (b₁ b₂ : BitVec 4) (v₁ v₂ : Bool) (s : State), b₁ ≠ b₂ → ∃ t u : State,
    execAll [writeBit b₁ v₁, writeBit b₂ v₂] s = .next t ∧
    execAll [writeBit b₂ v₂, writeBit b₁ v₁] s = .next u ∧ t.reg = u.reg

/-- The sixteen writes of LOADREG v load v from any state and touch nothing else. The pseudo-operation is D16 (log
entry 12). -/
def Obligations.LoadRegLoadsAnyValue : Prop :=
  ∀ (v : Word) (s : State), ∃ t : State,
    execAll (loadReg v) s = .next t ∧ t = { s with reg := v, outputs := t.outputs }

/-- LOADV, LOADF and LOADM load their field and leave every other bit of the register. The positions are D1, the
pseudo-operations D16 (log entry 12). -/
def Obligations.LoadFieldLoadsItsField : Prop :=
  ∀ s : State,
    (∀ m : BitVec 3, ∃ t, execAll (loadV m) s = .next t ∧
      t = { s with reg := s.reg &&& 0xFFF8#16 ||| m.setWidth 16, outputs := t.outputs }) ∧
    (∀ f : BitVec 7, ∃ t, execAll (loadF f) s = .next t ∧
      t = { s with reg := s.reg &&& 0xFC07#16 ||| (f.setWidth 16 <<< 3), outputs := t.outputs }) ∧
    (∀ m : BitVec 2, ∃ t, execAll (loadM m) s = .next t ∧
      t = { s with reg := s.reg &&& 0x9FFF#16 ||| (m.setWidth 16 <<< 13), outputs := t.outputs })

/-- The same control write done again leaves the state the first one left and returns change mask 0. That it gives out
nothing else, no Install and no ClockUpdate, is D23 (log entry 12). -/
def Obligations.ControlWriteIsIdempotent : Prop :=
  ∀ (o : ControlOffset) (s : State), ∃ t : State,
    exec (controlInstr o) s = .next t ∧
    exec (controlInstr o) t = .next { t with outputs := t.outputs ++ [.changeMask 0#16] }

/-- A control read is a side-effect-free draw, the same whatever the offset, the register and endc; the byte is a free value. -/
def Obligations.ControlReadReturnsADraw : Prop :=
  ∀ (o : ControlOffset) (s : State),
    exec (.ctrlRd o) s = .next { s with draws := s.draws + 1, outputs := s.outputs ++ [.byte (Config.freeByte s.draws)] }

/-- The view as a function of TY, M1:M0, P1 and endc; RAMCAP does not matter. -/
def Obligations.RecomputeSelectsTheView : Prop :=
  ∀ (reg : Word) (cap : RamCap),
    recompute reg cap true = .suppressed ∧
    (fieldM reg = 0#2 → recompute reg cap false = .active .ram4K (!fieldTY reg) true) ∧
    (fieldM reg = 1#2 → recompute reg cap false = .active .ram16K (!fieldTY reg) true) ∧
    (fieldM reg = 2#2 → fieldP1 reg = false → recompute reg cap false = .active .ram64KDynamic (!fieldTY reg) true) ∧
    (fieldM reg = 3#2 → fieldP1 reg = false → recompute reg cap false = .active .ram64KStatic (!fieldTY reg) true) ∧
    (fieldM reg = 2#2 ∨ fieldM reg = 3#2 → fieldP1 reg = true →
      recompute reg cap false = .active .ramPaged (!fieldTY reg) true)

/-- The decode, region by region, for endc = 0. The vector mirror's source, its independence of TY and the paged upper half are the spec's decisions D19, D12 and D13 (log entry 12). -/
def Obligations.BusDecodeTable : Prop :=
  ∀ (a : Word) (s : State), s.endc = false →
    (a.toNat ≤ 0x0FFF → (fieldM s.reg).toNat ≤ 1 → busDecode a s = served s.ramCap a.toNat) ∧
    (0x1000 ≤ a.toNat → a.toNat ≤ 0x7FFF → fieldM s.reg = 0#2 → busDecode a s = .unmapped) ∧
    (0x1000 ≤ a.toNat → a.toNat ≤ 0x3FFF → fieldM s.reg = 1#2 → busDecode a s = served s.ramCap a.toNat) ∧
    (0x4000 ≤ a.toNat → a.toNat ≤ 0x7FFF → fieldM s.reg = 1#2 → busDecode a s = .unmapped) ∧
    (a.toNat ≤ 0x7FFF → 2 ≤ (fieldM s.reg).toNat → fieldP1 s.reg = false → busDecode a s = served s.ramCap a.toNat) ∧
    (a.toNat ≤ 0x7FFF → 2 ≤ (fieldM s.reg).toNat → fieldP1 s.reg = true →
      busDecode a s = served s.ramCap (a.toNat + 0x8000)) ∧
    (0x8000 ≤ a.toNat → a.toNat ≤ 0xFEFF → fieldTY s.reg = false → busDecode a s = .rom (a.toNat - 0x8000)) ∧
    (0x8000 ≤ a.toNat → a.toNat ≤ 0xFEFF → fieldTY s.reg = true → (fieldM s.reg).toNat ≤ 1 →
      busDecode a s = .unmapped) ∧
    (0x8000 ≤ a.toNat → a.toNat ≤ 0xFEFF → fieldTY s.reg = true → 2 ≤ (fieldM s.reg).toNat →
      busDecode a s = served s.ramCap a.toNat) ∧
    (0xFF00 ≤ a.toNat → a.toNat ≤ 0xFFBF → busDecode a s = .io (a.toNat - 0xFF00)) ∧
    (0xFFE0 ≤ a.toNat → busDecode a s = .rom (s.wiring.vectorSrc + (a.toNat - 0xFFE0)))

/-- The decode is what the announced view says: the RAM view's window through the clamp, the ROM window by `rom`, the
I/O window by `io`, nothing when suppressed. The paged upper half is D13; that a suppressed view unmaps the vector
mirror too is D12 (log entry 12). The control range, which stays live, is split off before the decode (R144): the
decode's unmapped there is log entry 17. -/
def Obligations.TheActiveViewDecidesTheBus : Prop :=
  ∀ (a : Word) (s : State),
    (view s = .suppressed → busDecode a s = .unmapped) ∧
    ∀ (v : RamView) (rom io : Bool), view s = .active v rom io →
      (a.toNat ≤ 0x7FFF ∨ (0x8000 ≤ a.toNat ∧ a.toNat ≤ 0xFEFF ∧ rom = false) →
        busDecode a s = (windowOffset v a.toNat).elim .unmapped (served s.ramCap)) ∧
      (0x8000 ≤ a.toNat ∧ a.toNat ≤ 0xFEFF ∧ rom = true → busDecode a s = .rom (a.toNat - 0x8000)) ∧
      (0xFF00 ≤ a.toNat ∧ a.toNat ≤ 0xFFBF ∧ io = true → busDecode a s = .io (a.toNat - 0xFF00))

/-- The clamp: a RAM target is below RAMCAP; a window offset at or above RAMCAP is unmapped, one below it is served
(the paged upper half, decision D13, is in TheActiveViewDecidesTheBus). -/
def Obligations.DecodeNeverLeavesTheRam : Prop :=
  ∀ (a : Word) (s : State),
    (∀ off, busDecode a s = .ram off → off < s.ramCap.bytes) ∧
    ∀ (v : RamView) (rom io : Bool) (off : Nat), view s = .active v rom io →
      (a.toNat ≤ 0x7FFF ∨ (a.toNat ≤ 0xFEFF ∧ rom = false ∧ v ≠ .ramPaged)) → windowOffset v a.toNat = some off →
      (off < s.ramCap.bytes → busDecode a s = .ram off) ∧ (s.ramCap.bytes ≤ off → busDecode a s = .unmapped)

/-- BUS.RD by what answers the address: a known byte, else a free value. The draw of an unmapped read is D17 (log
entry 12); unknown RAM and ROM bytes and I/O reads are draws by log entries 9 and 10, and that an I/O read changes no
host byte is log entry 10. -/
def Obligations.BusReadByTarget : Prop :=
  ∀ (a : Word) (s : State),
    (∀ off b, busDecode a s = .ram off → Memory.read s.host.ram off = some b →
      exec (.busRd a) s = .next { s with outputs := s.outputs ++ [.slotRead 0 off, .byte b] }) ∧
    (∀ off, busDecode a s = .ram off → Memory.read s.host.ram off = none →
      exec (.busRd a) s = .next { s with
        draws := s.draws + 1, outputs := s.outputs ++ [.slotRead 0 off, .byte (Config.freeByte s.draws)] }) ∧
    (∀ off b, busDecode a s = .rom off → Memory.read s.host.rom off = some b →
      exec (.busRd a) s = .next { s with outputs := s.outputs ++ [.slotRead (slotOfRom s.wiring off) off, .byte b] }) ∧
    (∀ off, busDecode a s = .rom off → Memory.read s.host.rom off = none →
      exec (.busRd a) s = .next { s with
        draws := s.draws + 1
        outputs := s.outputs ++ [.slotRead (slotOfRom s.wiring off) off, .byte (Config.freeByte s.draws)] }) ∧
    (∀ off, busDecode a s = .io off →
      exec (.busRd a) s = .next { s with
        draws := s.draws + 1
        outputs := s.outputs ++ [.slotRead (slotOfIo s.wiring off) off, .byte (Config.freeByte s.draws)] }) ∧
    (busDecode a s = .unmapped →
      exec (.busRd a) s = .next { s with
        draws := s.draws + 1, outputs := s.outputs ++ [.byte (Config.freeByte s.draws)] })

/-- BUS.WR by what answers the address. Writes to ROM and I/O are handed to the slot (D21) and change no byte the
model knows (log entry 10); that an unmapped write has no effect is D17 (log entry 12). -/
def Obligations.BusWriteByTarget : Prop :=
  ∀ (a : Word) (d : Byte) (s : State),
    (∀ off, busDecode a s = .ram off →
      exec (.busWr a d) s = .next { s with
        host := { s.host with ram := Memory.write s.host.ram off d }
        outputs := s.outputs ++ [.slotWrite 0 off d] }) ∧
    (∀ off, busDecode a s = .rom off →
      exec (.busWr a d) s = .next { s with outputs := s.outputs ++ [.slotWrite (slotOfRom s.wiring off) off d] }) ∧
    (∀ off, busDecode a s = .io off →
      exec (.busWr a d) s = .next { s with outputs := s.outputs ++ [.slotWrite (slotOfIo s.wiring off) off d] }) ∧
    (busDecode a s = .unmapped → exec (.busWr a d) s = .next s)

/-- BUS.WR changes at most the RAM byte at the decoded offset; every other byte reads as before, ROM included, and no
element of the chip changes. The spec leaves the effect of a write decoded to ROM or I/O to the host (D21): that it
changes no known byte is log entry 10. That an unmapped write changes nothing is D17 (log entry 12). -/
def Obligations.BusWriteFrame : Prop :=
  ∀ (a : Word) (d : Byte) (s : State), ∃ t : State, exec (.busWr a d) s = .next t ∧
    (∀ off, busDecode a s = .ram off → Memory.read t.host.ram off = some d) ∧
    (∀ off, busDecode a s ≠ .ram off → Memory.read t.host.ram off = Memory.read s.host.ram off) ∧
    t = { s with host := { s.host with ram := t.host.ram }, outputs := t.outputs }

/-- No operation but BUS.WR (and ATTACH, which brings a new host) changes a host byte. The spec leaves the side
effects of a read of an I/O slot to the host (R58, U11): that such a BUS.RD changes no known byte is log entry 10. -/
def Obligations.OnlyBusWritesStore : Prop :=
  ∀ (i : Instr) (s t : State), (∀ a d, i ≠ .busWr a d) → (∀ c b d h, i ≠ .attach c b d h) →
    exec i s = .next t → t.host = s.host

/-- A byte written to a RAM address is what the next read of it returns. -/
def Obligations.BusReadReturnsTheByteWritten : Prop :=
  ∀ (a : Word) (d : Byte) (s : State) (off : Nat), busDecode a s = .ram off → ∃ t u : State,
    exec (.busWr a d) s = .next t ∧ exec (.busRd a) t = .next u ∧
    u.outputs = t.outputs ++ [.slotRead 0 off, .byte d]

/-- An address request after a CPU write returns the byte the write left, when its masked counter is the offset
written. The mask is D6, that the video path ignores the page flip and the windows D7 (log entry 12). -/
def Obligations.VideoRequestReturnsTheByteTheCpuWrote : Prop :=
  ∀ (a : Word) (d : Byte) (s : State) (off : Nat), busDecode a s = .ram off →
    s.counter.toNat % min (windowSize (fieldM s.reg)) s.ramCap.bytes = off →
    ∃ t u : State, exec (.busWr a d) s = .next t ∧ exec (.vreq (s.counter.extractLsb' 0 1)) t = .next u ∧
      u.outputs = t.outputs ++ [.slotRead 0 off, .byte d]

/-- Every ROM offset goes to one of slots 1 to 3 and every I/O offset to one of slots 4 to 7, in ascending order, split at the open parameter SLOT_BOUNDS (decision D18; two ROM boundaries by log entry 11). -/
def Obligations.SlotBoundaries : Prop :=
  ∀ (w : Wiring) (off : Nat),
    (off < w.romSlot2 → slotOfRom w off = 1) ∧
    (w.romSlot2 ≤ off → off < w.romSlot3 → slotOfRom w off = 2) ∧
    (w.romSlot2 ≤ w.romSlot3 → w.romSlot3 ≤ off → slotOfRom w off = 3) ∧
    (off < w.ioSlot5 → slotOfIo w off = 4) ∧
    (w.ioSlot5 ≤ off → off < w.ioSlot6 → slotOfIo w off = 5) ∧
    (w.ioSlot5 ≤ w.ioSlot6 → w.ioSlot6 ≤ off → off < w.ioSlot7 → slotOfIo w off = 6) ∧
    (w.ioSlot5 ≤ w.ioSlot6 → w.ioSlot6 ≤ w.ioSlot7 → w.ioSlot7 ≤ off → slotOfIo w off = 7)

/-- ENDC.SET and ENDC.CLR: the flag, and Install of the new view when the flag changed; nothing else. -/
def Obligations.EndcSetAndClear : Prop :=
  ∀ s : State,
    (s.endc = false → exec .endcSet s = .next { s with endc := true, outputs := s.outputs ++ [.install .suppressed] }) ∧
    (s.endc = true → exec .endcSet s = .next s) ∧
    (s.endc = true → exec .endcClr s = .next { s with
      endc := false, outputs := s.outputs ++ [.install (recompute s.reg s.ramCap false)] }) ∧
    (s.endc = false → exec .endcClr s = .next s)

/-- Disable then enable: everything is suppressed in between, and afterwards the view and the decode of every address
are the ones before. That the vector mirror is suppressed too is D12 (log entry 12); the control range is split off
before the decode, whose value there is log entry 17. -/
def Obligations.EndcRoundTripRestoresTheView : Prop :=
  ∀ s : State, s.endc = false → ∃ t u : State,
    exec .endcSet s = .next t ∧ exec .endcClr t = .next u ∧
    view t = .suppressed ∧ (∀ a, busDecode a t = .unmapped) ∧
    view u = view s ∧ (∀ a, busDecode a u = busDecode a s)

/-- The clock in Hz, exact (decision D14): base clock over divider times 4 or 2 by R0. -/
def Obligations.EffectiveClockFormula : Prop :=
  ∀ s : State, (clock s).hz = s.baseClk / ((s.divider * (if fieldR0 s.reg then 2 else 4) : Nat) : Rat)

/-- R1 has no effect on the clock, and neither has any other field, the view or endc. -/
def Obligations.OnlyR0AffectsTheClock : Prop :=
  ∀ (s t : State), SameParams s t → fieldR0 s.reg = fieldR0 t.reg → (clock s).hz = (clock t).hz

/-- The clock takes two values, in the ratio 1 : 2, as exact quotients (D14, log entry 12). -/
def Obligations.ClockDoublesWithR0 : Prop :=
  ∀ s : State, 0 < s.divider → ∃ t u : State, exec .clrR0 s = .next t ∧ exec .setR0 s = .next u ∧
    (clock u).hz = 2 * (clock t).hz ∧ ((clock s).hz = (clock t).hz ∨ (clock s).hz = (clock u).hz)

/-- The two threshold tables, all eight modes, and that a carry reads them with the video mode of that moment. -/
def Obligations.ThresholdTables : Prop :=
  (xThreshold 0#3 = 1#4 ∧ xThreshold 1#3 = 3#4 ∧ xThreshold 2#3 = 1#4 ∧ xThreshold 3#3 = 2#4 ∧
    xThreshold 4#3 = 1#4 ∧ xThreshold 5#3 = 1#4 ∧ xThreshold 6#3 = 1#4 ∧ xThreshold 7#3 = 1#4) ∧
  (yThreshold 0#3 = 12#4 ∧ yThreshold 1#3 = 1#4 ∧ yThreshold 2#3 = 3#4 ∧ yThreshold 3#3 = 1#4 ∧
    yThreshold 4#3 = 2#4 ∧ yThreshold 5#3 = 1#4 ∧ yThreshold 6#3 = 1#4 ∧ yThreshold 7#3 = 1#4) ∧
  ∀ s : State,
    (s.xdiv + 1#4 < xThreshold (fieldV s.reg) → (carry3 s).xdiv = s.xdiv + 1#4) ∧
    (s.xdiv + 1#4 = xThreshold (fieldV s.reg) → (carry3 s).xdiv = 0#4) ∧
    (s.ydiv + 1#4 < yThreshold (fieldV s.reg) → (carry4 s).ydiv = s.ydiv + 1#4) ∧
    (s.ydiv + 1#4 = yThreshold (fieldV s.reg) → (carry4 s).ydiv = 0#4)

/-- carry3 and carry4 handling. The comparison >= is D5, the wrap of the addition D22 (log entry 12). -/
def Obligations.CarryStages : Prop :=
  ∀ s : State,
    (s.ydiv + 1#4 < yThreshold (fieldV s.reg) → carry4 s = { s with ydiv := s.ydiv + 1#4 }) ∧
    (yThreshold (fieldV s.reg) ≤ s.ydiv + 1#4 →
      carry4 s = { s with ydiv := 0#4, counter := BitVec.ofNat 16 (s.counter.toNat + 0x20) }) ∧
    (s.xdiv + 1#4 < xThreshold (fieldV s.reg) → carry3 s = { s with xdiv := s.xdiv + 1#4 }) ∧
    (xThreshold (fieldV s.reg) ≤ s.xdiv + 1#4 → s.counter.getLsbD 4 = false →
      carry3 s = { s with xdiv := 0#4, counter := BitVec.ofNat 16 (s.counter.toNat + 0x10) }) ∧
    (xThreshold (fieldV s.reg) ≤ s.xdiv + 1#4 → s.counter.getLsbD 4 = true →
      carry3 s = carry4 { s with xdiv := 0#4, counter := BitVec.ofNat 16 (s.counter.toNat - 0x10) })

/-- VREQ.RESTART. The scaling of the display offset is D2 (log entry 12). -/
def Obligations.VreqRestartReloadsTheCounter : Prop :=
  ∀ s : State, ∃ t : State, exec .vreqRestart s = .next t ∧
    t.counter.toNat = (fieldF s.reg).toNat * 512 ∧ t.xdiv = 0#4 ∧ t.ydiv = 0#4 ∧
    t = { s with counter := t.counter, xdiv := t.xdiv, ydiv := t.ydiv, outputs := t.outputs, draws := t.draws }

/-- VREQ d: nothing moves when d is the counter's low bit; else the nibble advances, and its wrap enters carry3, whose
comparison is D5 and whose addition wraps by D22 (log entry 12). -/
def Obligations.VreqStepsTheCounter : Prop :=
  ∀ (d : BitVec 1) (s : State), ∃ t : State, exec (.vreq d) s = .next t ∧
    t = { s with counter := t.counter, xdiv := t.xdiv, ydiv := t.ydiv, outputs := t.outputs, draws := t.draws } ∧
    (d = s.counter.extractLsb' 0 1 → t.counter = s.counter ∧ t.xdiv = s.xdiv ∧ t.ydiv = s.ydiv) ∧
    (d ≠ s.counter.extractLsb' 0 1 → s.counter.toNat % 16 ≠ 15 →
      t.counter = s.counter + 1#16 ∧ t.xdiv = s.xdiv ∧ t.ydiv = s.ydiv) ∧
    (d ≠ s.counter.extractLsb' 0 1 → s.counter.toNat % 16 = 15 →
      t.counter = (carry3 { s with counter := s.counter - 15#16 }).counter ∧
      t.xdiv = (carry3 { s with counter := s.counter - 15#16 }).xdiv ∧
      t.ydiv = (carry3 { s with counter := s.counter - 15#16 }).ydiv)

/-- The byte an address request returns: RAM at the counter it leaves, masked to the smaller of the mode's window and RAMCAP (D6, D7); a free value under endc (D8) or where RAM was never written (log entry 9). -/
def Obligations.VideoReadReturnsTheMaskedByte : Prop :=
  ∀ (i : Instr) (s t : State), (i = .vreqRestart ∨ ∃ d, i = .vreq d) → exec i s = .next t →
    (s.endc = true → t.draws = s.draws + 1 ∧ t.outputs = s.outputs ++ [.byte (Config.freeByte s.draws)]) ∧
    (s.endc = false → ∀ off, off = t.counter.toNat % min (windowSize (fieldM s.reg)) s.ramCap.bytes →
      (∀ b, Memory.read s.host.ram off = some b →
        t.draws = s.draws ∧ t.outputs = s.outputs ++ [.slotRead 0 off, .byte b]) ∧
      (Memory.read s.host.ram off = none →
        t.draws = s.draws + 1 ∧ t.outputs = s.outputs ++ [.slotRead 0 off, .byte (Config.freeByte s.draws)]))

/-- After every VREQ d the counter's low bit is d, and bits 3..1 move only by the nibble's increment. -/
def Obligations.LowBitFollowsTheRequest : Prop :=
  ∀ (d : BitVec 1) (s : State), ∃ t : State, exec (.vreq d) s = .next t ∧
    t.counter.extractLsb' 0 1 = d ∧
    t.counter.extractLsb' 0 4 = s.counter.extractLsb' 0 4 + (s.counter.extractLsb' 0 1 ^^^ d).setWidth 4

/-- HS.RISE, by video mode: the bits cleared, the bit tested before the clear, the carry stage entered. -/
def Obligations.HorizontalSyncByMode : Prop :=
  ∀ s : State,
    (fieldV s.reg = 1#3 ∨ fieldV s.reg = 3#3 ∨ fieldV s.reg = 5#3 → s.counter.getLsbD 3 = false →
      exec .hsRise s = .next { s with counter := s.counter &&& 0xFFF0#16 }) ∧
    (fieldV s.reg = 1#3 ∨ fieldV s.reg = 3#3 ∨ fieldV s.reg = 5#3 → s.counter.getLsbD 3 = true →
      exec .hsRise s = .next (carry3 { s with counter := s.counter &&& 0xFFF0#16 })) ∧
    (fieldV s.reg = 0#3 ∨ fieldV s.reg = 2#3 ∨ fieldV s.reg = 4#3 ∨ fieldV s.reg = 6#3 → s.counter.getLsbD 4 = false →
      exec .hsRise s = .next { s with counter := s.counter &&& 0xFFE0#16 }) ∧
    (fieldV s.reg = 0#3 ∨ fieldV s.reg = 2#3 ∨ fieldV s.reg = 4#3 ∨ fieldV s.reg = 6#3 → s.counter.getLsbD 4 = true →
      exec .hsRise s = .next (carry4 { s with counter := s.counter &&& 0xFFE0#16 })) ∧
    (fieldV s.reg = 7#3 → exec .hsRise s = .next s)

/-- HS.FALL has no effect on any state (the operation is the edge: decision D20). -/
def Obligations.HorizontalSyncFallDoesNothing : Prop :=
  ∀ s : State, exec .hsFall s = .next s

/-- No operation but an address request, a horizontal sync and a reset (ATTACH performs one) touches counter, xdiv or ydiv. -/
def Obligations.CounterMovesOnlyByVideoEvents : Prop :=
  ∀ (i : Instr) (s t : State), i ≠ .vreqRestart → (∀ d, i ≠ .vreq d) → i ≠ .hsRise → i ≠ .reset →
    (∀ c b d h, i ≠ .attach c b d h) → exec i s = .next t →
    t.counter = s.counter ∧ t.xdiv = s.xdiv ∧ t.ydiv = s.ydiv

/-- The register is written by control writes and reset only (ATTACH performs one); endc by the ENDC operations and
ATTACH only. That ATTACH clears endc and RESET leaves it is D10 (log entry 12). -/
def Obligations.WhoWritesTheRegisterAndTheFlag : Prop :=
  ∀ (i : Instr) (s t : State), exec i s = .next t →
    ((∀ o, i ≠ controlInstr o) → i ≠ .reset → (∀ c b d h, i ≠ .attach c b d h) → t.reg = s.reg) ∧
    (i ≠ .endcSet → i ≠ .endcClr → (∀ c b d h, i ≠ .attach c b d h) → t.endc = s.endc)

/-- RAMCAP, BASECLK and DIVIDER change by no operation but ATTACH. VECTOR_SRC and SLOT_BOUNDS, in the form of log
entry 11, change by none: that ATTACH too leaves them is the model's choice (log entry 5). -/
def Obligations.ParametersAreFixedAfterAttach : Prop :=
  ∀ (i : Instr) (s t : State), exec i s = .next t →
    t.wiring = s.wiring ∧ ((∀ c b d h, i ≠ .attach c b d h) → SameParams t s)

/-- RESET. The zeros of counter, xdiv and ydiv are D9, the kept endc D10 (log entry 12). -/
def Obligations.ResetGivesTheResetState : Prop :=
  ∀ s : State, exec .reset s = .next { s with
    reg := 0x0000#16, counter := 0x0000#16, xdiv := 0#4, ydiv := 0#4
    outputs := s.outputs ++ [.install (if s.endc then .suppressed else .active .ram4K true true),
      .clockUpdate { base := s.baseClk, divisor := s.divider * 4 }] }

/-- ATTACH with a legal capacity. Its preconditions met, it completes in the reset state (endc := 0 is D10, the zeros D9);
without them it is refused (the spec's treatment U6, log entry 13). That it replaces the model's one instance, and how
it reads the binding, are log entry 5. -/
def Obligations.AttachGivesAFreshInstance : Prop :=
  ∀ (cap : RamCap) (b : Rat) (d : Nat) (h : HostBinding) (s : State),
    (0 < d → 0 < b →
      exec (.attach cap.bytes b d h) s = .next { s with
        reg := 0x0000#16, endc := false, counter := 0x0000#16, xdiv := 0#4, ydiv := 0#4
        ramCap := cap, baseClk := b, divider := d, host := bindHost cap h
        outputs := s.outputs ++ [.install (.active .ram4K true true), .clockUpdate { base := b, divisor := d * 4 }] }) ∧
    (d = 0 ∨ b ≤ 0 → exec (.attach cap.bytes b d h) s = .refused .attachPrecondition) ∧
    (Memory.wf h.ram = true → Memory.below cap.bytes h.ram = true →
      Memory.wf h.rom = true → Memory.below romRegionSize h.rom = true → bindHost cap h = h)

/-- E1: any capacity outside the five is fatal at ATTACH, whatever the other arguments, and reports the capacity. -/
def Obligations.AttachIllegalCapacityFaults : Prop :=
  ∀ (n : Nat) (b : Rat) (d : Nat) (h : HostBinding) (s : State), n ∉ [4096, 8192, 16384, 32768, 65536] →
    exec (.attach n b d h) s = .fault (.configurationError n)

/-- The only fault any operation ends in is ConfigurationError, at ATTACH with an illegal capacity; InvalidVideoMode never happens. -/
def Obligations.OnlyAttachCanFault : Prop :=
  ∀ (i : Instr) (s : State) (f : Fault), exec i s = .fault f →
    ∃ n b d h, i = .attach n b d h ∧ n ∉ [4096, 8192, 16384, 32768, 65536] ∧ f = .configurationError n

/-- Every operation is defined in every state: all but ATTACH answer a next state in every state, misconfigured, suppressed and paged ones included. -/
def Obligations.EveryOperationButAttachCompletes : Prop :=
  ∀ (i : Instr) (s : State), (∀ c b d h, i ≠ .attach c b d h) → ∃ t : State, exec i s = .next t

/-- The validity predicate: the seven proper pairs of capacity and mode, and no other. -/
def Obligations.ProperlyConfiguredPairs : Prop :=
  ∀ (cap : RamCap) (m : BitVec 2), properlyConfigured cap m = true ↔
    (m = 0#2 ∧ (cap.bytes = 4096 ∨ cap.bytes = 8192)) ∨ (m = 1#2 ∧ (cap.bytes = 16384 ∨ cap.bytes = 32768)) ∨
    (m = 2#2 ∧ (cap.bytes = 32768 ∨ cap.bytes = 65536)) ∨ (m = 3#2 ∧ cap.bytes = 65536)

/-- The state after reset is legal, its sub-dividers are in range, and the host has been told its view and clock. The
zeros of the sub-dividers are D9 and endc = 0 is D10 (log entry 12); the parameters are log entries 4 and 11, the
announcements log entry 7. -/
def Obligations.ResetMeetsTheInvariants : Prop :=
  Legal State.reset ∧ SubDividersInRange State.reset ∧ AnnouncedCurrent State.reset

/-- From every legal state, not only from reset, a step leads to a legal state. How ATTACH reads a binding and that it
keeps the wiring are log entry 5, the form of the wiring log entry 11, that ROM and I/O accesses change no known byte
log entry 10. -/
def Obligations.StepKeepsTheStateLegal : Prop :=
  ∀ s t : State, Legal s → step s = .next t → Legal t

/-- xdiv at most 2 and ydiv at most 11, kept by every step but a host restore (rests on the comparison >= of D5 and,
for RESET and ATTACH, on the zeros of D9, log entry 12). -/
def Obligations.SubDividersStayInRange : Prop :=
  ∀ s t : State, (∀ p rs, s.pending ≠ .restore p :: rs) → SubDividersInRange s → step s = .next t →
    SubDividersInRange t

/-- The last Install and the last ClockUpdate the host was given are those of the current state, after every step: no
change of view or clock goes unannounced. Which bits a notification answers to is D23, that a restore announces both
is D24 (log entry 12). -/
def Obligations.AnnouncementsStayCurrent : Prop :=
  ∀ s t : State, AnnouncedCurrent s → step s = .next t → AnnouncedCurrent t

/-- The chip's next state is a function of its five elements and the operation: not of RAM, ROM, the queue, earlier outputs, free values, RAMCAP, the clocks or the wiring. -/
def Obligations.TheChipDependsOnItsFiveElementsOnly : Prop :=
  ∀ (i : Instr) (s s' t t' : State), SameChip s s' → exec i s = .next t → exec i s' = .next t' → SameChip t t'

/-- From a restart, in a constant mode, with toggling requests and no sync, the first addition of 0x20 happens on request number 16 * XT * 2 * YT (rests on D2 for the start and D5 for the comparison). -/
def Obligations.PeriodWithoutSync : Prop :=
  ∀ (s : State) (n : Nat), n = 32 * (xThreshold (fieldV s.reg)).toNat * (yThreshold (fieldV s.reg)).toNat →
    (∀ m, m < n → ∃ t, execAll (.vreqRestart :: togglingRequests m) s = .next t ∧
      t.counter.toNat / 32 = (displayOffset s.reg).toNat / 32) ∧
    ∃ t, execAll (.vreqRestart :: togglingRequests n) s = .next t ∧
      t.counter = displayOffset s.reg + 0x0020#16 ∧ t.xdiv = 0#4 ∧ t.ydiv = 0#4
end

