-- ==== Sys2Proof/Laws/Memory.lean ====
section
/-! SUPPORT. The laws of a host memory: a read after a write, and the canonical form that every operation keeps. -/

namespace Sys2Proof.Machine

@[simp] theorem Memory.read_nil (off : Nat) : Memory.read [] off = none := rfl

theorem Memory.read_write_same (m : Memory) (off : Nat) (v : Byte) :
    Memory.read (Memory.write m off v) off = some v := by
  induction m with
  | nil => simp [Memory.write, Memory.read]
  | cons c m ih =>
    unfold Memory.write
    split
    · simp [Memory.read]
    · split
      · simp [Memory.read]
      · rename_i h; simp [Memory.read, Ne.symm h, ih]

theorem Memory.read_write_other (m : Memory) {off off' : Nat} (v : Byte) (h : off' ≠ off) :
    Memory.read (Memory.write m off v) off' = Memory.read m off' := by
  induction m with
  | nil => simp [Memory.write, Memory.read, Ne.symm h, Memory.unlisted]
  | cons c m ih =>
    unfold Memory.write
    split
    · simp [Memory.read, Ne.symm h]
    · split
      · rename_i hk; subst hk; simp [Memory.read, Ne.symm h]
      · simp only [Memory.read]; split <;> simp_all

theorem Memory.above_write {lo off : Nat} {m : Memory} {v : Byte} (hlo : lo < off)
    (h : Memory.above lo m = true) : Memory.above lo (Memory.write m off v) = true := by
  induction m with
  | nil => simp [Memory.write, Memory.above, hlo]
  | cons c m ih =>
    simp only [Memory.above, List.all_cons, Bool.and_eq_true, decide_eq_true_eq] at h ih
    unfold Memory.write
    split
    · simp [Memory.above, hlo, h.1, h.2]
    · split
      · simp [Memory.above, hlo, h.2]
      · simp [Memory.above, h.1, ih h.2]

theorem Memory.above_mono {lo lo' : Nat} {m : Memory} (hlo : lo ≤ lo') (h : Memory.above lo' m = true) :
    Memory.above lo m = true := by
  simp only [Memory.above, List.all_eq_true, decide_eq_true_eq] at *
  exact fun c hc => Nat.lt_of_le_of_lt hlo (h c hc)

/-- A write keeps the canonical form. -/
theorem Memory.write_wf {m : Memory} (off : Nat) (v : Byte) (h : Memory.wf m = true) :
    Memory.wf (Memory.write m off v) = true := by
  induction m with
  | nil => simp [Memory.write, Memory.wf, Memory.above]
  | cons c m ih =>
    obtain ⟨k, b⟩ := c
    simp only [Memory.wf, Bool.and_eq_true] at h
    unfold Memory.write
    split
    next hlt =>
      have hm : Memory.above off m = true := Memory.above_mono (Nat.le_of_lt hlt) h.1
      simp only [Memory.above] at hm
      simp [Memory.wf, Memory.above, h.2, hlt]
      exact ⟨by simpa using hm, by simpa [Memory.above] using h.1⟩
    next hge =>
      split
      next heq => subst heq; simp [Memory.wf, h.1, h.2]
      next hne =>
        simp only [Memory.wf, Bool.and_eq_true]
        exact ⟨Memory.above_write (by omega) h.1, ih h.2⟩

theorem Memory.write_below {bound off : Nat} {m : Memory} (v : Byte) (hoff : off < bound)
    (h : Memory.below bound m = true) : Memory.below bound (Memory.write m off v) = true := by
  induction m with
  | nil => simp [Memory.write, Memory.below, hoff]
  | cons c m ih =>
    simp only [Memory.below, List.all_cons, Bool.and_eq_true, decide_eq_true_eq] at h ih
    unfold Memory.write
    split
    · simp [Memory.below, hoff, h.1, h.2]
    · split
      · simp [Memory.below, hoff, h.2]
      · simp [Memory.below, h.1, ih h.2]

/-- The memory a binding installs is canonical. -/
theorem Memory.ofCells_wf (bound : Nat) (m : Memory) : Memory.wf (Memory.ofCells bound m) = true := by
  induction m with
  | nil => rfl
  | cons c m ih => unfold Memory.ofCells; split <;> [exact Memory.write_wf _ _ ih; exact ih]

/-- The memory a binding installs lies inside its region. -/
theorem Memory.ofCells_below (bound : Nat) (m : Memory) :
    Memory.below bound (Memory.ofCells bound m) = true := by
  induction m with
  | nil => rfl
  | cons c m ih =>
    unfold Memory.ofCells
    split
    next h => exact Memory.write_below _ h ih
    next => exact ih

theorem Memory.write_of_above {off : Nat} {m : Memory} (v : Byte) (h : Memory.above off m = true) :
    Memory.write m off v = (off, v) :: m := by
  cases m with
  | nil => rfl
  | cons c m =>
    simp only [Memory.above, List.all_cons, Bool.and_eq_true, decide_eq_true_eq] at h
    simp [Memory.write, h.1]

/-- A canonical memory inside its region is installed as it stands. -/
theorem Memory.ofCells_of_wf {bound : Nat} {m : Memory} (h : Memory.wf m = true)
    (hb : Memory.below bound m = true) : Memory.ofCells bound m = m := by
  induction m with
  | nil => rfl
  | cons c m ih =>
    obtain ⟨k, b⟩ := c
    simp only [Memory.wf, Bool.and_eq_true] at h
    simp only [Memory.below, List.all_cons, Bool.and_eq_true, decide_eq_true_eq] at hb
    simp only [Memory.ofCells, hb.1, if_true, ih h.2 hb.2]
    exact Memory.write_of_above b h.1

end Sys2Proof.Machine
end

