-- ==== Sys2Proof/Laws/State.lean ====
section
/-! SUPPORT. What every named update of the state leaves in every field: one lemma per field per update. -/

namespace Sys2Proof.Machine

variable (s : State)

@[simp] theorem State.setReg_reg (v : Word) : (s.setReg v).reg = v := rfl
@[simp] theorem State.setReg_endc (v : Word) : (s.setReg v).endc = s.endc := rfl
@[simp] theorem State.setReg_counter (v : Word) : (s.setReg v).counter = s.counter := rfl
@[simp] theorem State.setReg_xdiv (v : Word) : (s.setReg v).xdiv = s.xdiv := rfl
@[simp] theorem State.setReg_ydiv (v : Word) : (s.setReg v).ydiv = s.ydiv := rfl
@[simp] theorem State.setReg_ramCap (v : Word) : (s.setReg v).ramCap = s.ramCap := rfl
@[simp] theorem State.setReg_baseClk (v : Word) : (s.setReg v).baseClk = s.baseClk := rfl
@[simp] theorem State.setReg_divider (v : Word) : (s.setReg v).divider = s.divider := rfl
@[simp] theorem State.setReg_host (v : Word) : (s.setReg v).host = s.host := rfl
@[simp] theorem State.setReg_wiring (v : Word) : (s.setReg v).wiring = s.wiring := rfl
@[simp] theorem State.setReg_pending (v : Word) : (s.setReg v).pending = s.pending := rfl
@[simp] theorem State.setReg_outputs (v : Word) : (s.setReg v).outputs = s.outputs := rfl
@[simp] theorem State.setReg_draws (v : Word) : (s.setReg v).draws = s.draws := rfl

@[simp] theorem State.setEndc_reg (v : Bool) : (s.setEndc v).reg = s.reg := rfl
@[simp] theorem State.setEndc_endc (v : Bool) : (s.setEndc v).endc = v := rfl
@[simp] theorem State.setEndc_counter (v : Bool) : (s.setEndc v).counter = s.counter := rfl
@[simp] theorem State.setEndc_xdiv (v : Bool) : (s.setEndc v).xdiv = s.xdiv := rfl
@[simp] theorem State.setEndc_ydiv (v : Bool) : (s.setEndc v).ydiv = s.ydiv := rfl
@[simp] theorem State.setEndc_ramCap (v : Bool) : (s.setEndc v).ramCap = s.ramCap := rfl
@[simp] theorem State.setEndc_baseClk (v : Bool) : (s.setEndc v).baseClk = s.baseClk := rfl
@[simp] theorem State.setEndc_divider (v : Bool) : (s.setEndc v).divider = s.divider := rfl
@[simp] theorem State.setEndc_host (v : Bool) : (s.setEndc v).host = s.host := rfl
@[simp] theorem State.setEndc_wiring (v : Bool) : (s.setEndc v).wiring = s.wiring := rfl
@[simp] theorem State.setEndc_pending (v : Bool) : (s.setEndc v).pending = s.pending := rfl
@[simp] theorem State.setEndc_outputs (v : Bool) : (s.setEndc v).outputs = s.outputs := rfl
@[simp] theorem State.setEndc_draws (v : Bool) : (s.setEndc v).draws = s.draws := rfl

@[simp] theorem State.setCounter_reg (v : Word) : (s.setCounter v).reg = s.reg := rfl
@[simp] theorem State.setCounter_endc (v : Word) : (s.setCounter v).endc = s.endc := rfl
@[simp] theorem State.setCounter_counter (v : Word) : (s.setCounter v).counter = v := rfl
@[simp] theorem State.setCounter_xdiv (v : Word) : (s.setCounter v).xdiv = s.xdiv := rfl
@[simp] theorem State.setCounter_ydiv (v : Word) : (s.setCounter v).ydiv = s.ydiv := rfl
@[simp] theorem State.setCounter_ramCap (v : Word) : (s.setCounter v).ramCap = s.ramCap := rfl
@[simp] theorem State.setCounter_baseClk (v : Word) : (s.setCounter v).baseClk = s.baseClk := rfl
@[simp] theorem State.setCounter_divider (v : Word) : (s.setCounter v).divider = s.divider := rfl
@[simp] theorem State.setCounter_host (v : Word) : (s.setCounter v).host = s.host := rfl
@[simp] theorem State.setCounter_wiring (v : Word) : (s.setCounter v).wiring = s.wiring := rfl
@[simp] theorem State.setCounter_pending (v : Word) : (s.setCounter v).pending = s.pending := rfl
@[simp] theorem State.setCounter_outputs (v : Word) : (s.setCounter v).outputs = s.outputs := rfl
@[simp] theorem State.setCounter_draws (v : Word) : (s.setCounter v).draws = s.draws := rfl

@[simp] theorem State.setXdiv_reg (v : Nibble) : (s.setXdiv v).reg = s.reg := rfl
@[simp] theorem State.setXdiv_endc (v : Nibble) : (s.setXdiv v).endc = s.endc := rfl
@[simp] theorem State.setXdiv_counter (v : Nibble) : (s.setXdiv v).counter = s.counter := rfl
@[simp] theorem State.setXdiv_xdiv (v : Nibble) : (s.setXdiv v).xdiv = v := rfl
@[simp] theorem State.setXdiv_ydiv (v : Nibble) : (s.setXdiv v).ydiv = s.ydiv := rfl
@[simp] theorem State.setXdiv_ramCap (v : Nibble) : (s.setXdiv v).ramCap = s.ramCap := rfl
@[simp] theorem State.setXdiv_baseClk (v : Nibble) : (s.setXdiv v).baseClk = s.baseClk := rfl
@[simp] theorem State.setXdiv_divider (v : Nibble) : (s.setXdiv v).divider = s.divider := rfl
@[simp] theorem State.setXdiv_host (v : Nibble) : (s.setXdiv v).host = s.host := rfl
@[simp] theorem State.setXdiv_wiring (v : Nibble) : (s.setXdiv v).wiring = s.wiring := rfl
@[simp] theorem State.setXdiv_pending (v : Nibble) : (s.setXdiv v).pending = s.pending := rfl
@[simp] theorem State.setXdiv_outputs (v : Nibble) : (s.setXdiv v).outputs = s.outputs := rfl
@[simp] theorem State.setXdiv_draws (v : Nibble) : (s.setXdiv v).draws = s.draws := rfl

@[simp] theorem State.setYdiv_reg (v : Nibble) : (s.setYdiv v).reg = s.reg := rfl
@[simp] theorem State.setYdiv_endc (v : Nibble) : (s.setYdiv v).endc = s.endc := rfl
@[simp] theorem State.setYdiv_counter (v : Nibble) : (s.setYdiv v).counter = s.counter := rfl
@[simp] theorem State.setYdiv_xdiv (v : Nibble) : (s.setYdiv v).xdiv = s.xdiv := rfl
@[simp] theorem State.setYdiv_ydiv (v : Nibble) : (s.setYdiv v).ydiv = v := rfl
@[simp] theorem State.setYdiv_ramCap (v : Nibble) : (s.setYdiv v).ramCap = s.ramCap := rfl
@[simp] theorem State.setYdiv_baseClk (v : Nibble) : (s.setYdiv v).baseClk = s.baseClk := rfl
@[simp] theorem State.setYdiv_divider (v : Nibble) : (s.setYdiv v).divider = s.divider := rfl
@[simp] theorem State.setYdiv_host (v : Nibble) : (s.setYdiv v).host = s.host := rfl
@[simp] theorem State.setYdiv_wiring (v : Nibble) : (s.setYdiv v).wiring = s.wiring := rfl
@[simp] theorem State.setYdiv_pending (v : Nibble) : (s.setYdiv v).pending = s.pending := rfl
@[simp] theorem State.setYdiv_outputs (v : Nibble) : (s.setYdiv v).outputs = s.outputs := rfl
@[simp] theorem State.setYdiv_draws (v : Nibble) : (s.setYdiv v).draws = s.draws := rfl

@[simp] theorem State.setRam_reg (m : Memory) : (s.setRam m).reg = s.reg := rfl
@[simp] theorem State.setRam_endc (m : Memory) : (s.setRam m).endc = s.endc := rfl
@[simp] theorem State.setRam_counter (m : Memory) : (s.setRam m).counter = s.counter := rfl
@[simp] theorem State.setRam_xdiv (m : Memory) : (s.setRam m).xdiv = s.xdiv := rfl
@[simp] theorem State.setRam_ydiv (m : Memory) : (s.setRam m).ydiv = s.ydiv := rfl
@[simp] theorem State.setRam_ramCap (m : Memory) : (s.setRam m).ramCap = s.ramCap := rfl
@[simp] theorem State.setRam_baseClk (m : Memory) : (s.setRam m).baseClk = s.baseClk := rfl
@[simp] theorem State.setRam_divider (m : Memory) : (s.setRam m).divider = s.divider := rfl
@[simp] theorem State.setRam_host (m : Memory) : (s.setRam m).host = { s.host with ram := m } := rfl
@[simp] theorem State.setRam_wiring (m : Memory) : (s.setRam m).wiring = s.wiring := rfl
@[simp] theorem State.setRam_pending (m : Memory) : (s.setRam m).pending = s.pending := rfl
@[simp] theorem State.setRam_outputs (m : Memory) : (s.setRam m).outputs = s.outputs := rfl
@[simp] theorem State.setRam_draws (m : Memory) : (s.setRam m).draws = s.draws := rfl

@[simp] theorem State.setParams_reg (c : RamCap) (b : Rat) (d : Nat) (h : HostBinding) : (s.setParams c b d h).reg = s.reg := rfl
@[simp] theorem State.setParams_endc (c : RamCap) (b : Rat) (d : Nat) (h : HostBinding) : (s.setParams c b d h).endc = s.endc := rfl
@[simp] theorem State.setParams_counter (c : RamCap) (b : Rat) (d : Nat) (h : HostBinding) : (s.setParams c b d h).counter = s.counter := rfl
@[simp] theorem State.setParams_xdiv (c : RamCap) (b : Rat) (d : Nat) (h : HostBinding) : (s.setParams c b d h).xdiv = s.xdiv := rfl
@[simp] theorem State.setParams_ydiv (c : RamCap) (b : Rat) (d : Nat) (h : HostBinding) : (s.setParams c b d h).ydiv = s.ydiv := rfl
@[simp] theorem State.setParams_ramCap (c : RamCap) (b : Rat) (d : Nat) (h : HostBinding) : (s.setParams c b d h).ramCap = c := rfl
@[simp] theorem State.setParams_baseClk (c : RamCap) (b : Rat) (d : Nat) (h : HostBinding) : (s.setParams c b d h).baseClk = b := rfl
@[simp] theorem State.setParams_divider (c : RamCap) (b : Rat) (d : Nat) (h : HostBinding) : (s.setParams c b d h).divider = d := rfl
@[simp] theorem State.setParams_host (c : RamCap) (b : Rat) (d : Nat) (h : HostBinding) : (s.setParams c b d h).host = h := rfl
@[simp] theorem State.setParams_wiring (c : RamCap) (b : Rat) (d : Nat) (h : HostBinding) : (s.setParams c b d h).wiring = s.wiring := rfl
@[simp] theorem State.setParams_pending (c : RamCap) (b : Rat) (d : Nat) (h : HostBinding) : (s.setParams c b d h).pending = s.pending := rfl
@[simp] theorem State.setParams_outputs (c : RamCap) (b : Rat) (d : Nat) (h : HostBinding) : (s.setParams c b d h).outputs = s.outputs := rfl
@[simp] theorem State.setParams_draws (c : RamCap) (b : Rat) (d : Nat) (h : HostBinding) : (s.setParams c b d h).draws = s.draws := rfl

@[simp] theorem State.setPending_reg (rs : List Request) : (s.setPending rs).reg = s.reg := rfl
@[simp] theorem State.setPending_endc (rs : List Request) : (s.setPending rs).endc = s.endc := rfl
@[simp] theorem State.setPending_counter (rs : List Request) : (s.setPending rs).counter = s.counter := rfl
@[simp] theorem State.setPending_xdiv (rs : List Request) : (s.setPending rs).xdiv = s.xdiv := rfl
@[simp] theorem State.setPending_ydiv (rs : List Request) : (s.setPending rs).ydiv = s.ydiv := rfl
@[simp] theorem State.setPending_ramCap (rs : List Request) : (s.setPending rs).ramCap = s.ramCap := rfl
@[simp] theorem State.setPending_baseClk (rs : List Request) : (s.setPending rs).baseClk = s.baseClk := rfl
@[simp] theorem State.setPending_divider (rs : List Request) : (s.setPending rs).divider = s.divider := rfl
@[simp] theorem State.setPending_host (rs : List Request) : (s.setPending rs).host = s.host := rfl
@[simp] theorem State.setPending_wiring (rs : List Request) : (s.setPending rs).wiring = s.wiring := rfl
@[simp] theorem State.setPending_pending (rs : List Request) : (s.setPending rs).pending = rs := rfl
@[simp] theorem State.setPending_outputs (rs : List Request) : (s.setPending rs).outputs = s.outputs := rfl
@[simp] theorem State.setPending_draws (rs : List Request) : (s.setPending rs).draws = s.draws := rfl

@[simp] theorem State.emit_reg (o : Output) : (s.emit o).reg = s.reg := rfl
@[simp] theorem State.emit_endc (o : Output) : (s.emit o).endc = s.endc := rfl
@[simp] theorem State.emit_counter (o : Output) : (s.emit o).counter = s.counter := rfl
@[simp] theorem State.emit_xdiv (o : Output) : (s.emit o).xdiv = s.xdiv := rfl
@[simp] theorem State.emit_ydiv (o : Output) : (s.emit o).ydiv = s.ydiv := rfl
@[simp] theorem State.emit_ramCap (o : Output) : (s.emit o).ramCap = s.ramCap := rfl
@[simp] theorem State.emit_baseClk (o : Output) : (s.emit o).baseClk = s.baseClk := rfl
@[simp] theorem State.emit_divider (o : Output) : (s.emit o).divider = s.divider := rfl
@[simp] theorem State.emit_host (o : Output) : (s.emit o).host = s.host := rfl
@[simp] theorem State.emit_wiring (o : Output) : (s.emit o).wiring = s.wiring := rfl
@[simp] theorem State.emit_pending (o : Output) : (s.emit o).pending = s.pending := rfl
@[simp] theorem State.emit_outputs (o : Output) : (s.emit o).outputs = s.outputs ++ [o] := rfl
@[simp] theorem State.emit_draws (o : Output) : (s.emit o).draws = s.draws := rfl

@[simp] theorem State.countDraw_reg : (s.countDraw).reg = s.reg := rfl
@[simp] theorem State.countDraw_endc : (s.countDraw).endc = s.endc := rfl
@[simp] theorem State.countDraw_counter : (s.countDraw).counter = s.counter := rfl
@[simp] theorem State.countDraw_xdiv : (s.countDraw).xdiv = s.xdiv := rfl
@[simp] theorem State.countDraw_ydiv : (s.countDraw).ydiv = s.ydiv := rfl
@[simp] theorem State.countDraw_ramCap : (s.countDraw).ramCap = s.ramCap := rfl
@[simp] theorem State.countDraw_baseClk : (s.countDraw).baseClk = s.baseClk := rfl
@[simp] theorem State.countDraw_divider : (s.countDraw).divider = s.divider := rfl
@[simp] theorem State.countDraw_host : (s.countDraw).host = s.host := rfl
@[simp] theorem State.countDraw_wiring : (s.countDraw).wiring = s.wiring := rfl
@[simp] theorem State.countDraw_pending : (s.countDraw).pending = s.pending := rfl
@[simp] theorem State.countDraw_outputs : (s.countDraw).outputs = s.outputs := rfl
@[simp] theorem State.countDraw_draws : (s.countDraw).draws = s.draws + 1 := rfl

end Sys2Proof.Machine
end

