-- ==== Sys2Proof/Laws/Ops.lean ====
section
/-! SUPPORT. For each shared operation, once, everything it can do. Provers cite these and do not unfold the
operation. -/

namespace Sys2Proof.Machine

/-! ### Slots and draws -/

theorem slotByte_ram (off : Nat) (s : State) : slotByte 0 off s = Memory.read s.host.ram off := rfl

theorem slotByte_rom {slot : Fin 8} (off : Nat) (s : State) (h₀ : slot.val ≠ 0) (h₃ : slot.val ≤ 3) :
    slotByte slot off s = Memory.read s.host.rom off := by
  simp [slotByte, h₀, h₃]

theorem slotByte_device {slot : Fin 8} (off : Nat) (s : State) (h : 3 < slot.val) : slotByte slot off s = none := by
  have h₀ : slot.val ≠ 0 := by omega
  have h₃ : ¬ slot.val ≤ 3 := by omega
  rw [slotByte, if_neg h₀, if_neg h₃]

theorem readSlot_known {slot : Fin 8} {off : Nat} {s : State} {b : Byte} (h : slotByte slot off s = some b) :
    readSlot slot off s = (b, s.emit (.slotRead slot off)) := by
  simp [readSlot, h]

theorem readSlot_unknown {slot : Fin 8} {off : Nat} {s : State} (h : slotByte slot off s = none) :
    readSlot slot off s = (Config.freeByte s.draws, (s.emit (.slotRead slot off)).countDraw) := by
  simp [readSlot, h, draw]

/-- A slot read changes the outputs and the draw count only. -/
theorem readSlot_frame (slot : Fin 8) (off : Nat) (s : State) :
    (readSlot slot off s).2 =
      { s with outputs := s.outputs ++ [.slotRead slot off], draws := (readSlot slot off s).2.draws } := by
  cases h : slotByte slot off s with
  | some b => rw [readSlot_known h]; rfl
  | none => rw [readSlot_unknown h]; rfl

/-- A slot write changes the outputs and, for slot 0, the RAM byte written. -/
theorem writeSlot_ram (off : Nat) (v : Byte) (s : State) :
    writeSlot 0 off v s = { s with
      host := { s.host with ram := Memory.write s.host.ram off v }, outputs := s.outputs ++ [.slotWrite 0 off v] } := rfl

theorem writeSlot_other {slot : Fin 8} (off : Nat) (v : Byte) (s : State) (h : slot.val ≠ 0) :
    writeSlot slot off v s = { s with outputs := s.outputs ++ [.slotWrite slot off v] } := by
  rw [writeSlot, if_neg h]; rfl

theorem slotOfRom_range (w : Wiring) (off : Nat) : (slotOfRom w off).val ≠ 0 ∧ (slotOfRom w off).val ≤ 3 := by
  unfold slotOfRom; split <;> [decide; (split <;> decide)]

theorem slotOfIo_range (w : Wiring) (off : Nat) : 3 < (slotOfIo w off).val := by
  unfold slotOfIo; split <;> [decide; (split <;> [decide; (split <;> decide)])]

@[simp] theorem answer_eq (b : Byte) (s : State) : answer (b, s) = .next (s.emit (.byte b)) := rfl

@[simp] theorem draw_eq (s : State) : draw s = (Config.freeByte s.draws, s.countDraw) := rfl

/-! ### The bus -/

/-- A bus read always completes and changes the outputs and the draw count only. -/
theorem execBusRd_frame (a : Word) (s : State) :
    ∃ t, execBusRd a s = .next t ∧ t = { s with outputs := t.outputs, draws := t.draws } := by
  have key : ∀ slot off, ∃ t, answer (readSlot slot off s) = .next t ∧
      t = { s with outputs := t.outputs, draws := t.draws } := fun slot off =>
    ⟨_, rfl, by simp only [State.emit]; rw [readSlot_frame]⟩
  unfold execBusRd
  split
  · exact key _ _
  · exact key _ _
  · exact key _ _
  · exact ⟨_, rfl, rfl⟩

/-- A bus write always completes; it changes the outputs and, when it decodes to RAM, the byte there. -/
theorem execBusWr_cases (a : Word) (d : Byte) (s : State) :
    ∃ t, execBusWr a d s = .next t ∧
      ((∃ off, busDecode a s = .ram off ∧ t = writeSlot 0 off d s) ∨
       ((∀ off, busDecode a s ≠ .ram off) ∧ t = { s with outputs := t.outputs })) := by
  unfold execBusWr
  split
  next off h => exact ⟨_, rfl, .inl ⟨off, h, rfl⟩⟩
  next off h =>
    exact ⟨_, rfl, .inr ⟨by simp [h], by rw [writeSlot_other _ _ _ (slotOfRom_range _ _).1]⟩⟩
  next off h =>
    have hs := slotOfIo_range s.wiring off
    exact ⟨_, rfl, .inr ⟨by simp [h], by rw [writeSlot_other _ _ _ (by omega)]⟩⟩
  next h => exact ⟨_, rfl, .inr ⟨by simp [h], rfl⟩⟩

theorem clampRam_below {cap : RamCap} {o : Option Nat} {off : Nat} (h : clampRam cap o = .ram off) :
    off < cap.bytes := by
  cases o with
  | none => simp [clampRam] at h
  | some n => simp only [clampRam] at h; split at h <;> simp_all

/-- A RAM target lies inside the RAM. -/
theorem busDecode_ram_below {a : Word} {s : State} {off : Nat} (h : busDecode a s = .ram off) :
    off < s.ramCap.bytes := by
  unfold busDecode at h
  split at h <;> [cases h; skip]
  split at h <;> [cases h; skip]
  split at h <;> [cases h; skip]
  split at h <;> [cases h; skip]
  split at h <;> [cases h; exact clampRam_below h]

/-! ### Control writes -/

theorem reactView_frame (m : Word) (s : State) : reactView m s = { s with outputs := (reactView m s).outputs } := by
  unfold reactView; split <;> rfl

theorem reactClock_frame (m : Word) (s : State) : reactClock m s = { s with outputs := (reactClock m s).outputs } := by
  unfold reactClock; split <;> rfl

/-- What a control write gives out after the change mask. -/
def reactions (m : Word) (s : State) : List Output :=
  (if touches m viewBits then [.install (view s)] else []) ++
    (if touches m clockBits then [.clockUpdate (clock s)] else [])

/-- A control write writes the register and gives out the change mask and the reactions; nothing else. -/
theorem controlWrite_eq (o : ControlOffset) (s : State) :
    controlWrite o s = .next { s with
      reg := alterReg o s.reg
      outputs := s.outputs ++
        .changeMask (changeMask o s.reg) :: reactions (changeMask o s.reg) { s with reg := alterReg o s.reg } } := by
  have hv : ∀ t : State, view (t.emit (.changeMask (changeMask o s.reg))) = view t := fun _ => rfl
  unfold controlWrite reactView reactClock reactions
  split <;> split <;>
    simp only [announceView, announceClock, alter, State.emit, State.setReg, view, clock, List.append_assoc,
      List.cons_append, List.nil_append, List.append_nil]

/-- The control write at an offset is the shared operation at that offset (30_encoding.md R83). -/
theorem exec_controlInstr (o : ControlOffset) (s : State) : exec (controlInstr o) s = controlWrite o s := by
  revert o
  have key : ∀ n : Fin 32, exec (controlInstr (BitVec.ofFin n)) s = controlWrite (BitVec.ofFin n) s := by
    intro n
    fin_cases n <;> rfl
  exact fun o => key o.toFin

/-! ### The video address generator -/

/-- carry4 writes `ydiv` and `counter` only. -/
theorem carry4_frame (s : State) :
    carry4 s = { s with counter := (carry4 s).counter, ydiv := (carry4 s).ydiv } := by
  unfold carry4; split <;> rfl

/-- carry3 writes `xdiv`, `ydiv` and `counter` only. -/
theorem carry3_frame (s : State) :
    carry3 s = { s with counter := (carry3 s).counter, xdiv := (carry3 s).xdiv, ydiv := (carry3 s).ydiv } := by
  unfold carry3
  split
  · split
    · rw [carry4_frame]; rfl
    · rfl
  · rfl

theorem stepCounter_frame (d : BitVec 1) (s : State) :
    stepCounter d s = { s with
      counter := (stepCounter d s).counter, xdiv := (stepCounter d s).xdiv, ydiv := (stepCounter d s).ydiv } := by
  unfold stepCounter
  split
  · rfl
  · split
    · rw [carry3_frame]; rfl
    · rfl

theorem syncOdd_frame (s : State) :
    syncOdd s = { s with counter := (syncOdd s).counter, xdiv := (syncOdd s).xdiv, ydiv := (syncOdd s).ydiv } := by
  unfold syncOdd
  split
  · rw [carry3_frame]; rfl
  · rfl

theorem syncEven_frame (s : State) :
    syncEven s = { s with counter := (syncEven s).counter, ydiv := (syncEven s).ydiv } := by
  unfold syncEven
  split
  · rw [carry4_frame]; rfl
  · rfl

/-- A horizontal sync writes `counter`, `xdiv` and `ydiv` only. -/
theorem syncCounter_frame (s : State) :
    syncCounter s = { s with
      counter := (syncCounter s).counter, xdiv := (syncCounter s).xdiv, ydiv := (syncCounter s).ydiv } := by
  have he : syncEven s = { s with
      counter := (syncEven s).counter, xdiv := (syncEven s).xdiv, ydiv := (syncEven s).ydiv } := by
    rw [syncEven_frame]
  have ho := syncOdd_frame s
  unfold syncCounter
  split <;> first | exact he | exact ho | rfl

/-- A video read changes the outputs and the draw count only. -/
theorem videoRead_frame (s : State) :
    (videoRead s).2 = { s with outputs := (videoRead s).2.outputs, draws := (videoRead s).2.draws } := by
  unfold videoRead
  split
  · rfl
  · rw [readSlot_frame]

theorem answer_videoRead_frame (s : State) :
    ∃ t, answer (videoRead s) = .next t ∧ t = { s with outputs := t.outputs, draws := t.draws } :=
  ⟨_, rfl, by simp only [State.emit]; rw [videoRead_frame]⟩

/-! ### Reset, attach, restore -/

theorem resetChip_eq (s : State) :
    resetChip s = { s with
      reg := 0x0000#16, counter := 0x0000#16, xdiv := 0#4, ydiv := 0#4
      outputs := s.outputs ++ [.install (recompute 0x0000#16 s.ramCap s.endc),
        .clockUpdate (effectiveClock s.baseClk s.divider false false)] } := by
  simp [resetChip, announce, announceView, announceClock, State.emit, State.setReg, State.setCounter, State.setXdiv,
    State.setYdiv, view, clock, fieldR1, fieldR0]

theorem restore_eq (p : Persisted) (s : State) :
    restore p s = { s with
      reg := p.reg, endc := p.endc, counter := p.counter, xdiv := p.xdiv.setWidth 4, ydiv := p.ydiv.setWidth 4
      outputs := s.outputs ++ [.install (recompute p.reg s.ramCap p.endc),
        .clockUpdate (effectiveClock s.baseClk s.divider (fieldR1 p.reg) (fieldR0 p.reg))] } := by
  simp [restore, announce, announceView, announceClock, State.emit, State.setReg, State.setEndc, State.setCounter,
    State.setXdiv, State.setYdiv, view, clock]

@[simp] theorem legalCapacity_bytes (cap : RamCap) : legalCapacity cap.bytes = some cap := by
  cases cap <;> rfl

/-- The capacity check accepts exactly the five capacities. -/
theorem legalCapacity_some {n : Nat} {cap : RamCap} (h : legalCapacity n = some cap) : n = cap.bytes := by
  unfold legalCapacity at h
  repeat' split at h
  all_goals cases h
  all_goals assumption

theorem legalCapacity_none {n : Nat} (h : n ∉ [4096, 8192, 16384, 32768, 65536]) : legalCapacity n = none := by
  simp only [List.mem_cons, List.not_mem_nil, or_false, not_or] at h
  simp [legalCapacity, h]

end Sys2Proof.Machine
end

