-- ==== Sys2Proof/Laws/ControlWrite.lean ====
section
/-! SUPPORT. The laws of the control writes, bit by bit, and of a sequence of them. -/

namespace Sys2Proof.Machine

theorem bitIndex_eq (o : ControlOffset) : bitIndex o = o.toNat / 2 := by
  have := o.isLt
  simp only [bitIndex, BitVec.extractLsb'_toNat, Nat.shiftRight_eq_div_pow]; omega

theorem bitIndex_lt (o : ControlOffset) : o.toNat / 2 < 16 := by have := o.isLt; omega

theorem bitMask_eq (o : ControlOffset) : bitMask o = 1#16 <<< (o.toNat / 2) := by rw [bitMask, bitIndex_eq]

theorem getLsbD_bitMask (o : ControlOffset) (k : Nat) : (bitMask o).getLsbD k = decide (k = o.toNat / 2) := by
  have hb := bitIndex_lt o
  rw [bitMask_eq, BitVec.getLsbD_shiftLeft, BitVec.getLsbD_one, Bool.eq_iff_iff]
  simp
  omega

/-- Each bit of the register after a control write. -/
theorem getLsbD_alterReg (o : ControlOffset) (r : Word) (k : Nat) :
    (alterReg o r).getLsbD k = if k = o.toNat / 2 then o.getLsbD 0 else r.getLsbD k := by
  have hb := bitIndex_lt o
  have hr : 16 ≤ k → r.getLsbD k = false := BitVec.getLsbD_of_ge r k
  unfold alterReg setSense
  cases hs : o.getLsbD 0 <;> by_cases hk : k = o.toNat / 2 <;>
    simp only [if_true, Bool.false_eq_true, if_false, BitVec.getLsbD_or, BitVec.getLsbD_and, BitVec.getLsbD_not,
      getLsbD_bitMask, hk, decide_true, decide_false, Bool.or_true, Bool.or_false, Bool.not_true, Bool.not_false,
      Bool.and_false, Bool.and_true]
  by_cases h : k < 16
  · simp only [h, decide_true, Bool.and_true]
  · rw [hr (by omega)]; rfl

/-- The change mask is the targeted bit when it held the opposite of the sense, else 0. -/
theorem changeMask_eq (o : ControlOffset) (r : Word) :
    changeMask o r = if r.getLsbD (o.toNat / 2) = o.getLsbD 0 then 0#16 else bitMask o := by
  apply BitVec.eq_of_getLsbD_eq
  intro k hk
  rw [changeMask, BitVec.getLsbD_xor, getLsbD_alterReg]
  by_cases h : k = o.toNat / 2
  · rw [if_pos h, ← h]
    cases r.getLsbD k <;> cases o.getLsbD 0 <;>
      simp only [if_true, reduceCtorEq, if_false, getLsbD_bitMask, h, decide_true, BitVec.getLsbD_zero,
        Bool.xor_false, Bool.xor_true, Bool.not_true, Bool.not_false]
  · rw [if_neg h, Bool.xor_self]
    split <;> simp only [getLsbD_bitMask, h, BitVec.getLsbD_zero, decide_false]

theorem alterReg_eq_self_iff (o : ControlOffset) (r : Word) : alterReg o r = r ↔ changeMask o r = 0#16 := by
  rw [changeMask, BitVec.xor_eq_zero_iff, eq_comm]

theorem alterReg_idem (o : ControlOffset) (r : Word) : alterReg o (alterReg o r) = alterReg o r := by
  apply BitVec.eq_of_getLsbD_eq
  intro k hk
  simp only [getLsbD_alterReg]
  split <;> rfl

@[simp] theorem touches_zero (bits : Word) : touches 0#16 bits = false := by simp [touches]

@[simp] theorem reactions_zero (s : State) : reactions 0#16 s = [] := by simp [reactions]

/-- What `WritesBit` asks of the control write at an offset: its mask, its sense, and the reaction to that mask. -/
theorem writesBit_of (o : ControlOffset) {i : Instr} {mask : Word} {sense : Bool} {reaction : State → List Output}
    (hi : i = controlInstr o) (hm : bitMask o = mask) (hs : o.getLsbD 0 = sense)
    (hr : ∀ s, reactions mask s = reaction s) : WritesBit i mask sense reaction := by
  intro s
  subst hi hm hs
  have hnew : (if o.getLsbD 0 = true then s.reg ||| bitMask o else s.reg &&& ~~~bitMask o) = alterReg o s.reg := rfl
  simp only
  rw [exec_controlInstr, controlWrite_eq, hnew]
  congr 3
  congr 1
  by_cases h : alterReg o s.reg = s.reg
  · rw [if_pos h, (alterReg_eq_self_iff _ _).1 h, reactions_zero]
  · have hm : changeMask o s.reg = bitMask o := by
      have h₂ := mt (alterReg_eq_self_iff o s.reg).2 h
      rw [changeMask_eq] at h₂ ⊢
      split <;> simp_all
    rw [if_neg h, ← hr, hm]

theorem writeBit_toNat : ∀ (b : BitVec 4) (v : Bool), (b ++ BitVec.ofBool v : BitVec 5).toNat / 2 = b.toNat := by decide

theorem writeBit_sense : ∀ (b : BitVec 4) (v : Bool), (b ++ BitVec.ofBool v : BitVec 5).getLsbD 0 = v := by decide

/-- `writeBit b v` writes bit `b` and gives out a change mask and reactions; nothing else. -/
theorem exec_writeBit (b : BitVec 4) (v : Bool) (s : State) : ∃ more,
    exec (writeBit b v) s = .next { s with
      reg := alterReg (b ++ BitVec.ofBool v) s.reg
      outputs := s.outputs ++ .changeMask (changeMask (b ++ BitVec.ofBool v) s.reg) :: more } :=
  ⟨_, by unfold writeBit; rw [exec_controlInstr, controlWrite_eq]⟩

/-- The register after the control writes `l`, in order. -/
def writeBits (l : List (BitVec 4 × Bool)) (r : Word) : Word :=
  l.foldl (fun r p => alterReg (p.1 ++ BitVec.ofBool p.2) r) r

/-- A sequence of control writes completes and changes the register and the outputs only. -/
theorem execAll_writeBits (l : List (BitVec 4 × Bool)) (s : State) :
    ∃ t, execAll (l.map fun p => writeBit p.1 p.2) s = .next t ∧
      t = { s with reg := writeBits l s.reg, outputs := t.outputs } := by
  induction l generalizing s with
  | nil => exact ⟨s, rfl, rfl⟩
  | cons p l ih =>
    obtain ⟨more, h⟩ := exec_writeBit p.1 p.2 s
    obtain ⟨t, ht, et⟩ := ih { s with
      reg := alterReg (p.1 ++ BitVec.ofBool p.2) s.reg
      outputs := s.outputs ++ .changeMask (changeMask (p.1 ++ BitVec.ofBool p.2) s.reg) :: more }
    refine ⟨t, by simp only [List.map_cons, execAll, h, ht], ?_⟩
    rw [et]; rfl

/-- Each bit of the register after writes that give every bit they name the value `f` gives it. -/
theorem getLsbD_writeBits (l : List (BitVec 4 × Bool)) (f : Nat → Bool) (hl : ∀ p ∈ l, p.2 = f p.1.toNat) (r : Word)
    (k : Nat) :
    (writeBits l r).getLsbD k = if k ∈ l.map (fun p => p.1.toNat) then f k else r.getLsbD k := by
  induction l generalizing r with
  | nil => simp [writeBits]
  | cons p l ih =>
    have e : writeBits (p :: l) r = writeBits l (alterReg (p.1 ++ BitVec.ofBool p.2) r) := rfl
    have := hl p List.mem_cons_self
    rw [e, ih (fun q hq => hl q (List.mem_cons_of_mem _ hq)), getLsbD_alterReg, writeBit_toNat, writeBit_sense]
    by_cases h₁ : k ∈ l.map (fun p => p.1.toNat) <;> by_cases h₂ : k = p.1.toNat <;> simp_all

end Sys2Proof.Machine
end

