-- ==== Sys2Proof/Laws/Encoding.lean ====
section
/-! SUPPORT. The laws of the encodings: the control range, and the control write and its offset. -/

namespace Sys2Proof

theorem inControlRange_iff (a : Word) : inControlRange a = true ↔ 0xFFC0 ≤ a.toNat ∧ a.toNat ≤ 0xFFDF := by
  have := a.isLt
  simp only [inControlRange, beq_iff_eq, ← BitVec.toNat_inj, BitVec.extractLsb'_toNat, BitVec.toNat_ofNat,
    Nat.shiftRight_eq_div_pow]
  omega

theorem inControlRange_controlAddress : ∀ o : ControlOffset, inControlRange (controlAddress o) = true := by decide

theorem extractLsb_controlAddress : ∀ o : ControlOffset, (controlAddress o).extractLsb' 0 5 = o := by decide

theorem controlAddress_extractLsb {a : Word} (h : inControlRange a = true) :
    controlAddress (a.extractLsb' 0 5) = a := by
  have ⟨h₁, h₂⟩ := (inControlRange_iff a).1 h
  apply BitVec.eq_of_toNat_eq
  simp only [controlAddress, ctrlBase, BitVec.toNat_add, BitVec.toNat_setWidth, BitVec.extractLsb'_toNat,
    BitVec.toNat_ofNat, Nat.shiftRight_zero]
  omega

theorem decode_encodeControl (o : ControlOffset) : decode (encodeControl o) = .ok (controlInstr o) := by
  simp [decode, encodeControl, inControlRange_controlAddress, extractLsb_controlAddress]

theorem encode_controlInstr : ∀ o : ControlOffset, encode (controlInstr o) = encodeControl o := by decide

theorem controlInstr_wf : ∀ o : ControlOffset, (controlInstr o).wf = true := by decide

theorem canonical_encodeControl (o : ControlOffset) : (encodeControl o).canonical = encodeControl o := by
  simp [encodeControl, Request.canonical]

/-- The encoding of `VREQ d` is not the sentinel, and its low bit is `d`. -/
theorem vreq_offset : ∀ d : BitVec 1,
    (d.setWidth 32 : RequestOffset) ≠ restartOffset ∧ (d.setWidth 32 : RequestOffset).extractLsb' 0 1 = d := by
  decide

/-- The 43 operations by shape: a control write at some offset, or one of the eleven others. -/
theorem instr_cases (i : Instr) :
    (∃ o, i = controlInstr o) ∨ (∃ o, i = .ctrlRd o) ∨ (∃ a, i = .busRd a) ∨ (∃ a d, i = .busWr a d) ∨
    i = .endcSet ∨ i = .endcClr ∨ i = .vreqRestart ∨ (∃ d, i = .vreq d) ∨ i = .hsRise ∨ i = .hsFall ∨
    (∃ c b d h, i = .attach c b d h) ∨ i = .reset := by
  cases i with
  | clrV0 => exact .inl ⟨0#5, rfl⟩
  | setV0 => exact .inl ⟨1#5, rfl⟩
  | clrV1 => exact .inl ⟨2#5, rfl⟩
  | setV1 => exact .inl ⟨3#5, rfl⟩
  | clrV2 => exact .inl ⟨4#5, rfl⟩
  | setV2 => exact .inl ⟨5#5, rfl⟩
  | clrF0 => exact .inl ⟨6#5, rfl⟩
  | setF0 => exact .inl ⟨7#5, rfl⟩
  | clrF1 => exact .inl ⟨8#5, rfl⟩
  | setF1 => exact .inl ⟨9#5, rfl⟩
  | clrF2 => exact .inl ⟨10#5, rfl⟩
  | setF2 => exact .inl ⟨11#5, rfl⟩
  | clrF3 => exact .inl ⟨12#5, rfl⟩
  | setF3 => exact .inl ⟨13#5, rfl⟩
  | clrF4 => exact .inl ⟨14#5, rfl⟩
  | setF4 => exact .inl ⟨15#5, rfl⟩
  | clrF5 => exact .inl ⟨16#5, rfl⟩
  | setF5 => exact .inl ⟨17#5, rfl⟩
  | clrF6 => exact .inl ⟨18#5, rfl⟩
  | setF6 => exact .inl ⟨19#5, rfl⟩
  | clrP1 => exact .inl ⟨20#5, rfl⟩
  | setP1 => exact .inl ⟨21#5, rfl⟩
  | clrR0 => exact .inl ⟨22#5, rfl⟩
  | setR0 => exact .inl ⟨23#5, rfl⟩
  | clrR1 => exact .inl ⟨24#5, rfl⟩
  | setR1 => exact .inl ⟨25#5, rfl⟩
  | clrM0 => exact .inl ⟨26#5, rfl⟩
  | setM0 => exact .inl ⟨27#5, rfl⟩
  | clrM1 => exact .inl ⟨28#5, rfl⟩
  | setM1 => exact .inl ⟨29#5, rfl⟩
  | clrTY => exact .inl ⟨30#5, rfl⟩
  | setTY => exact .inl ⟨31#5, rfl⟩
  | _ => simp

end Sys2Proof
end

