-- ==== Sys2Proof/Laws/MemoryView.lean ====
section
/-! SUPPORT. The laws of the decode, of the view and of the external-disable line. -/

namespace Sys2Proof.Machine

theorem fieldM_cases (reg : Word) : fieldM reg = 0#2 ∨ fieldM reg = 1#2 ∨ fieldM reg = 2#2 ∨ fieldM reg = 3#2 := by
  generalize fieldM reg = m
  revert m; decide

@[simp] theorem clampRam_some (cap : RamCap) (n : Nat) : clampRam cap (some n) = served cap n := rfl

theorem clampRam_eq (cap : RamCap) (o : Option Nat) : clampRam cap o = o.elim .unmapped (served cap) := by
  cases o <;> rfl

/-- The decode reads `reg`, `endc`, RAMCAP and the wiring only. -/
theorem busDecode_congr {s t : State} (hr : t.reg = s.reg) (he : t.endc = s.endc) (hc : t.ramCap = s.ramCap)
    (hw : t.wiring = s.wiring) (a : Word) : busDecode a t = busDecode a s := by
  simp only [busDecode, hr, he, hc, hw]

theorem busDecode_suppressed {s : State} (a : Word) (he : s.endc = true) : busDecode a s = .unmapped := by
  simp [busDecode, he]

/-- 0x0000 to 0x7FFF: the RAM view through the clamp. -/
theorem busDecode_low {a : Word} {s : State} (he : s.endc = false) (h : a.toNat ≤ 0x7FFF) :
    busDecode a s = clampRam s.ramCap (ramOffset s.reg a.toNat) := by
  unfold busDecode
  rw [he, if_neg (by simp), if_neg (by omega), if_neg (by omega), if_neg (by omega), if_neg (by omega)]

/-- 0x8000 to 0xFEFF: ROM, or under TY the RAM view through the clamp. -/
theorem busDecode_high {a : Word} {s : State} (he : s.endc = false) (h₀ : 0x8000 ≤ a.toNat) (h : a.toNat ≤ 0xFEFF) :
    busDecode a s =
      if fieldTY s.reg = false then .rom (a.toNat - 0x8000) else clampRam s.ramCap (ramOffset s.reg a.toNat) := by
  unfold busDecode
  rw [he, if_neg (by simp), if_neg (by omega), if_neg (by omega), if_neg (by omega)]
  simp [h₀]

/-- 0xFF00 to 0xFFBF: I/O. -/
theorem busDecode_io {a : Word} {s : State} (he : s.endc = false) (h₀ : 0xFF00 ≤ a.toNat) (h : a.toNat ≤ 0xFFBF) :
    busDecode a s = .io (a.toNat - 0xFF00) := by
  unfold busDecode
  rw [he, if_neg (by simp), if_neg (by omega), if_neg (by omega), if_pos (by omega)]

/-- 0xFFE0 to 0xFFFF: the ROM bytes at VECTOR_SRC. -/
theorem busDecode_vector {a : Word} {s : State} (he : s.endc = false) (h : 0xFFE0 ≤ a.toNat) :
    busDecode a s = .rom (s.wiring.vectorSrc + (a.toNat - 0xFFE0)) := by
  unfold busDecode
  rw [he, if_neg (by simp), if_pos (by omega)]

/-- A view that is not suppressed names the RAM view, the ROM and the I/O of the current register. -/
theorem view_active {s : State} {v : RamView} {rom io : Bool} (h : view s = .active v rom io) :
    s.endc = false ∧ v = ramView s.reg ∧ rom = (!fieldTY s.reg) ∧ io = true := by
  unfold view recompute at h
  split at h <;> cases h
  simp_all

theorem view_suppressed {s : State} (h : view s = .suppressed) : s.endc = true := by
  unfold view recompute at h
  split at h
  · assumption
  · cases h

/-- The offset before the clamp is the one of the RAM view's window. -/
theorem ramOffset_window (reg : Word) (n : Nat) : ramOffset reg n = windowOffset (ramView reg) n := by
  rcases fieldM_cases reg with h | h | h | h <;> cases hp : fieldP1 reg <;>
    simp [ramOffset, ramView, windowOffset, h, hp]
  all_goals first | (split <;> split <;> first | rfl | omega) | (split <;> rfl)

/-- ENDC.SET and ENDC.CLR write the flag and, when it changed, give out Install. -/
theorem setEndcLine_eq (v : Bool) (s : State) :
    setEndcLine v s = { s with
      endc := v
      outputs := s.outputs ++ if s.endc = v then [] else [.install (recompute s.reg s.ramCap v)] } := by
  unfold setEndcLine
  split
  next h => subst h; simp
  next h => rfl

end Sys2Proof.Machine
end

