-- ==== Sys2Proof/Laws/Exec.lean ====
section
/-! SUPPORT. What each operation can have done when it answered a next state. With `instr_cases` these are the case
analysis of every claim over all operations. -/

namespace Sys2Proof.Machine

variable {s t : State}

theorem exec_controlInstr_inv {o : ControlOffset} (h : exec (controlInstr o) s = .next t) :
    t = { s with
      reg := alterReg o s.reg
      outputs := s.outputs ++
        .changeMask (changeMask o s.reg) :: reactions (changeMask o s.reg) { s with reg := alterReg o s.reg } } := by
  rw [exec_controlInstr, controlWrite_eq] at h; cases h; rfl

theorem exec_ctrlRd_inv {o : ControlOffset} (h : exec (.ctrlRd o) s = .next t) :
    t = { s with outputs := s.outputs ++ [.byte (Config.freeByte s.draws)], draws := s.draws + 1 } := by
  cases h; rfl

theorem exec_busRd_inv {a : Word} (h : exec (.busRd a) s = .next t) :
    t = { s with outputs := t.outputs, draws := t.draws } := by
  obtain ⟨u, hu, eu⟩ := execBusRd_frame a s
  have : exec (.busRd a) s = .next u := hu
  rw [this] at h; cases h; exact eu

theorem exec_busWr_inv {a : Word} {d : Byte} (h : exec (.busWr a d) s = .next t) :
    (∃ off, busDecode a s = .ram off ∧ t = { s with
      host := { s.host with ram := Memory.write s.host.ram off d }, outputs := s.outputs ++ [.slotWrite 0 off d] }) ∨
    ((∀ off, busDecode a s ≠ .ram off) ∧ t = { s with outputs := t.outputs }) := by
  obtain ⟨u, hu, eu⟩ := execBusWr_cases a d s
  have : exec (.busWr a d) s = .next u := hu
  rw [this] at h; cases h; exact eu

theorem exec_endcSet_inv (h : exec .endcSet s = .next t) : t = setEndcLine true s := by cases h; rfl

theorem exec_endcClr_inv (h : exec .endcClr s = .next t) : t = setEndcLine false s := by cases h; rfl

theorem exec_vreqRestart_inv (h : exec .vreqRestart s = .next t) :
    t = { restartCounter s with outputs := t.outputs, draws := t.draws } := by
  cases h; simp only [State.emit]; rw [videoRead_frame]

theorem exec_vreq_inv {d : BitVec 1} (h : exec (.vreq d) s = .next t) :
    t = { stepCounter d s with outputs := t.outputs, draws := t.draws } := by
  cases h; simp only [State.emit]; rw [videoRead_frame]

theorem exec_hsRise_inv (h : exec .hsRise s = .next t) : t = syncCounter s := by cases h; rfl

theorem exec_hsFall_inv (h : exec .hsFall s = .next t) : t = s := by cases h; rfl

theorem exec_attach_inv {n : Nat} {b : Rat} {d : Nat} {host : HostBinding}
    (h : exec (.attach n b d host) s = .next t) :
    ∃ cap : RamCap, n = cap.bytes ∧ 0 < d ∧ 0 < b ∧
      t = resetChip ((s.setParams cap b d (bindHost cap host)).setEndc false) := by
  change execAttach n b d host s = _ at h
  unfold execAttach at h
  split at h
  · cases h
  next cap hc =>
    split at h
    next hp => cases h; exact ⟨cap, legalCapacity_some hc, hp.1, hp.2, rfl⟩
    · cases h

theorem exec_reset_inv (h : exec .reset s = .next t) : t = resetChip s := by cases h; rfl

end Sys2Proof.Machine
end

