-- ==== Sys2Proof/Laws/PerInstr.lean ====
section
/-! SUPPORT. One family of facts about every operation as syntax. -/

/-- The encoder writes every ignored bit as zero, so the encoding of a well-formed operation is its own canonical
call (30_encoding.md R81, R86). -/
def Sys2Proof.Laws.EncodeCanonical.Statement (i : Sys2Proof.Instr) : Prop :=
  i.wf = true → (Sys2Proof.encode i).canonical = Sys2Proof.encode i

namespace Sys2Proof.Laws.EncodeCanonical

theorem clrV0 : Statement .clrV0 := fun _ => canonical_encodeControl _

theorem setV0 : Statement .setV0 := fun _ => canonical_encodeControl _

theorem clrV1 : Statement .clrV1 := fun _ => canonical_encodeControl _

theorem setV1 : Statement .setV1 := fun _ => canonical_encodeControl _

theorem clrV2 : Statement .clrV2 := fun _ => canonical_encodeControl _

theorem setV2 : Statement .setV2 := fun _ => canonical_encodeControl _

theorem clrF0 : Statement .clrF0 := fun _ => canonical_encodeControl _

theorem setF0 : Statement .setF0 := fun _ => canonical_encodeControl _

theorem clrF1 : Statement .clrF1 := fun _ => canonical_encodeControl _

theorem setF1 : Statement .setF1 := fun _ => canonical_encodeControl _

theorem clrF2 : Statement .clrF2 := fun _ => canonical_encodeControl _

theorem setF2 : Statement .setF2 := fun _ => canonical_encodeControl _

theorem clrF3 : Statement .clrF3 := fun _ => canonical_encodeControl _

theorem setF3 : Statement .setF3 := fun _ => canonical_encodeControl _

theorem clrF4 : Statement .clrF4 := fun _ => canonical_encodeControl _

theorem setF4 : Statement .setF4 := fun _ => canonical_encodeControl _

theorem clrF5 : Statement .clrF5 := fun _ => canonical_encodeControl _

theorem setF5 : Statement .setF5 := fun _ => canonical_encodeControl _

theorem clrF6 : Statement .clrF6 := fun _ => canonical_encodeControl _

theorem setF6 : Statement .setF6 := fun _ => canonical_encodeControl _

theorem clrP1 : Statement .clrP1 := fun _ => canonical_encodeControl _

theorem setP1 : Statement .setP1 := fun _ => canonical_encodeControl _

theorem clrR0 : Statement .clrR0 := fun _ => canonical_encodeControl _

theorem setR0 : Statement .setR0 := fun _ => canonical_encodeControl _

theorem clrR1 : Statement .clrR1 := fun _ => canonical_encodeControl _

theorem setR1 : Statement .setR1 := fun _ => canonical_encodeControl _

theorem clrM0 : Statement .clrM0 := fun _ => canonical_encodeControl _

theorem setM0 : Statement .setM0 := fun _ => canonical_encodeControl _

theorem clrM1 : Statement .clrM1 := fun _ => canonical_encodeControl _

theorem setM1 : Statement .setM1 := fun _ => canonical_encodeControl _

theorem clrTY : Statement .clrTY := fun _ => canonical_encodeControl _

theorem setTY : Statement .setTY := fun _ => canonical_encodeControl _

theorem ctrlRd (o : ControlOffset) : Statement (.ctrlRd o) := fun _ => rfl

theorem busRd (a : Word) : Statement (.busRd a) := fun _ => rfl

theorem busWr (a : Word) (d : Byte) : Statement (.busWr a d) := by
  intro h
  simp only [Instr.wf, Bool.not_eq_true'] at h
  simp [encode, Request.canonical, h]

theorem endcSet : Statement .endcSet := fun _ => rfl

theorem endcClr : Statement .endcClr := fun _ => rfl

theorem vreqRestart : Statement .vreqRestart := fun _ => by simp [encode, Request.canonical]

theorem vreq (d : BitVec 1) : Statement (.vreq d) := by
  intro _
  have h := vreq_offset d
  simp only [encode, Request.canonical, if_neg h.1, h.2]

theorem hsRise : Statement .hsRise := fun _ => rfl

theorem hsFall : Statement .hsFall := fun _ => rfl

theorem attach (ramCap : Nat) (baseClk : Rat) (divider : Nat) (host : HostBinding) :
    Statement (.attach ramCap baseClk divider host) := fun _ => rfl

theorem reset : Statement .reset := fun _ => rfl

end Sys2Proof.Laws.EncodeCanonical
end

