-- ==== Sys2Proof/Laws/Step.lean ====
section
/-! SUPPORT. What one step can do, what a legal state depends on, and what an output says about view and clock. -/

namespace Sys2Proof.Machine

/-- A step that answers a next state: nothing pending, a restore, or the meaning of the decoded operation. -/
theorem step_cases {s t : State} (h : step s = .next t) :
    (s.pending = [] ∧ t = s) ∨
    (∃ p rs, s.pending = .restore p :: rs ∧ t = restore p (s.setPending rs)) ∨
    (∃ r rs i, s.pending = r :: rs ∧ (∀ p, r ≠ .restore p) ∧ decode r = .ok i ∧
      exec i (s.setPending rs) = .next t) := by
  unfold step at h
  split at h
  next hp => cases h; exact .inl ⟨hp, rfl⟩
  next r rs hp =>
    unfold deliver at h
    split at h
    next p => cases h; exact .inr (.inl ⟨p, rs, hp, rfl⟩)
    next r hr =>
      split at h
      next i hi => exact .inr (.inr ⟨_, rs, i, hp, hr, hi, h⟩)
      next => cases h

/-- Restoring what was saved brings the five elements back (10_state.md R42). -/
theorem restore_save (s t : State) : SameChip (restore (save s) t) s := by
  have h : ∀ d : Nibble, (d.setWidth 8).setWidth 4 = d := by decide
  rw [restore_eq]
  exact ⟨rfl, rfl, rfl, h _, h _⟩

/-- `Legal` reads the parameters, the host and the wiring only. -/
theorem Legal.congr {s t : State} (h : Legal s) (hc : t.ramCap = s.ramCap) (hb : t.baseClk = s.baseClk)
    (hd : t.divider = s.divider) (hh : t.host = s.host) (hw : t.wiring = s.wiring) : Legal t := by
  obtain ⟨h₁, h₂, h₃, h₄, h₅, h₆, h₇, h₈, h₉⟩ := h
  constructor <;> simp only [hc, hb, hd, hh, hw] <;> assumption

theorem lastInstall_append (xs ys : List Output) :
    lastInstall (xs ++ ys) = (lastInstall ys).or (lastInstall xs) := by
  induction xs with
  | nil => simp [lastInstall]
  | cons x xs ih =>
    simp only [List.cons_append, lastInstall, ih]
    cases lastInstall ys <;> cases lastInstall xs <;> simp

theorem lastClock_append (xs ys : List Output) : lastClock (xs ++ ys) = (lastClock ys).or (lastClock xs) := by
  induction xs with
  | nil => simp [lastClock]
  | cons x xs ih =>
    simp only [List.cons_append, lastClock, ih]
    cases lastClock ys <;> cases lastClock xs <;> simp

theorem getLsbD_and_of_set (r m : Word) {k : Nat} (h : m.getLsbD k = true) :
    (r &&& m).getLsbD k = r.getLsbD k := by
  rw [BitVec.getLsbD_and, h, Bool.and_true]

theorem fieldM_viewBits (r : Word) : fieldM (r &&& viewBits) = fieldM r := by
  apply BitVec.eq_of_getLsbD_eq
  intro k hk
  simp only [fieldM, viewBits, BitVec.getLsbD_extractLsb', BitVec.getLsbD_and]
  have : k = 0 ∨ k = 1 := by omega
  rcases this with rfl | rfl <;> simp

/-- The view reads the register at the bits TY, M1, M0 and P1 only. -/
theorem recompute_viewBits (r : Word) (cap : RamCap) (endc : Bool) :
    recompute (r &&& viewBits) cap endc = recompute r cap endc := by
  have h₁ : fieldTY (r &&& viewBits) = fieldTY r := getLsbD_and_of_set _ _ rfl
  have h₂ : fieldP1 (r &&& viewBits) = fieldP1 r := getLsbD_and_of_set _ _ rfl
  simp only [recompute, ramView, fieldM_viewBits, h₁, h₂]

/-- The clock reads the register at the bits R1 and R0 only. -/
theorem effectiveClock_clockBits (base : Rat) (divider : Nat) (r : Word) :
    effectiveClock base divider (fieldR1 (r &&& clockBits)) (fieldR0 (r &&& clockBits)) =
      effectiveClock base divider (fieldR1 r) (fieldR0 r) := by
  have h₁ : fieldR1 (r &&& clockBits) = fieldR1 r := getLsbD_and_of_set _ _ rfl
  have h₂ : fieldR0 (r &&& clockBits) = fieldR0 r := getLsbD_and_of_set _ _ rfl
  rw [h₁, h₂]

/-- A control write whose change mask shares no bit with `bits` leaves those bits alone. -/
theorem alterReg_of_not_touches {o : ControlOffset} {r bits : Word} (h : touches (changeMask o r) bits = false) :
    alterReg o r &&& bits = r &&& bits := by
  simp only [touches, bne_eq_false_iff_eq, changeMask] at h
  apply BitVec.eq_of_getLsbD_eq
  intro k hk
  have hk' := congrArg (·.getLsbD k) h
  simp only [BitVec.getLsbD_and, BitVec.getLsbD_xor, BitVec.getLsbD_zero] at hk' ⊢
  generalize r.getLsbD k = x at hk' ⊢
  generalize (alterReg o r).getLsbD k = y at hk' ⊢
  generalize bits.getLsbD k = z at hk' ⊢
  revert hk'
  revert x y z
  decide

end Sys2Proof.Machine
end

