-- ==== Sys2Proof/Laws/VideoAddress.lean ====
section
/-! SUPPORT. The laws of the video address counter: the nibble, the low bit, the mask, and what each update leaves. -/

namespace Sys2Proof.Machine

theorem advanceNibble_toNat (c : Word) : (advanceNibble c).toNat = c.toNat / 16 * 16 + (c.toNat + 1) % 16 := by
  have := c.isLt
  simp only [advanceNibble, BitVec.toNat_append, BitVec.toNat_add, BitVec.extractLsb'_toNat,
    Nat.shiftRight_eq_div_pow, BitVec.toNat_ofNat]
  rw [← Nat.shiftLeft_add_eq_or_of_lt (by omega), Nat.shiftLeft_eq]
  omega

theorem nibbleWraps_iff (c : Word) : nibbleWraps c = true ↔ c.toNat % 16 = 15 := by
  simp only [nibbleWraps, beq_iff_eq, ← BitVec.toNat_inj, BitVec.extractLsb'_toNat, BitVec.toNat_ofNat,
    Nat.shiftRight_zero, Nat.reducePow, Nat.reduceMod]

theorem eq_lowBit_iff (d : BitVec 1) (c : Word) : d = c.extractLsb' 0 1 ↔ d.toNat = c.toNat % 2 := by
  simp only [← BitVec.toNat_inj, BitVec.extractLsb'_toNat, Nat.shiftRight_zero, Nat.pow_one]

/-- `VREQ d` with `d` the counter's low bit moves nothing. -/
theorem stepCounter_same {d : BitVec 1} {s : State} (h : d = s.counter.extractLsb' 0 1) : stepCounter d s = s := by
  rw [stepCounter, if_pos h]

/-- `VREQ d` with the other bit, away from the nibble's wrap, adds one. -/
theorem stepCounter_next {d : BitVec 1} {s : State} (h : d ≠ s.counter.extractLsb' 0 1)
    (hw : s.counter.toNat % 16 ≠ 15) : stepCounter d s = { s with counter := s.counter + 1#16 } := by
  rw [stepCounter, if_neg h, if_neg (fun h' => hw ((nibbleWraps_iff _).1 h'))]
  simp only [State.setCounter]; congr 1
  apply BitVec.eq_of_toNat_eq
  have := s.counter.isLt
  rw [advanceNibble_toNat]; simp; omega

/-- `VREQ d` with the other bit, at the nibble's wrap, clears the nibble and enters carry3. -/
theorem stepCounter_wrap {d : BitVec 1} {s : State} (h : d ≠ s.counter.extractLsb' 0 1)
    (hw : s.counter.toNat % 16 = 15) : stepCounter d s = carry3 { s with counter := s.counter - 15#16 } := by
  rw [stepCounter, if_neg h, if_pos ((nibbleWraps_iff _).2 hw)]
  simp only [State.setCounter]; congr 2
  apply BitVec.eq_of_toNat_eq
  have := s.counter.isLt
  rw [advanceNibble_toNat]; simp; omega

/-- A toggle of bit 4 that sets it adds 0x10. -/
theorem toggle_of_clear {c : Word} (h : c.getLsbD 4 = false) : c ^^^ 0x0010#16 = c + 0x0010#16 := by
  have key : ∀ k, k < 16 → (0x0010#16).getLsbD k = decide (k = 4) := by decide
  have hz : c &&& 0x0010#16 = 0#16 := by
    apply BitVec.eq_of_getLsbD_eq
    intro k hk
    rw [BitVec.getLsbD_and, key k hk, BitVec.getLsbD_zero]
    by_cases h4 : k = 4
    · rw [h4, h]; rfl
    · rw [decide_eq_false h4, Bool.and_false]
  rw [BitVec.add_eq_or_of_and_eq_zero _ _ hz]
  apply BitVec.eq_of_getLsbD_eq
  intro k hk
  rw [BitVec.getLsbD_xor, BitVec.getLsbD_or, key k hk]
  by_cases h4 : k = 4
  · rw [h4, h]; rfl
  · rw [decide_eq_false h4, Bool.xor_false, Bool.or_false]

/-- A toggle of bit 4 that clears it takes 0x10 away. -/
theorem toggle_of_set {c : Word} (h : c.getLsbD 4 = true) : c ^^^ 0x0010#16 = c - 0x0010#16 := by
  have h' : (c ^^^ 0x0010#16).getLsbD 4 = false := by rw [BitVec.getLsbD_xor, h]; rfl
  have e := toggle_of_clear h'
  rw [BitVec.xor_assoc, BitVec.xor_self, BitVec.xor_zero] at e
  rw [e, BitVec.add_sub_cancel, ← e]

/-- The counter with bit 4 set is at least 0x10. -/
theorem toNat_of_bit4 {c : Word} (h : c.getLsbD 4 = true) : 16 ≤ c.toNat := by
  rw [BitVec.getLsbD, Nat.testBit_eq_decide_div_mod_eq] at h
  simp at h; omega

/-- Whether a carry reaches the threshold. -/
theorem reaches_true {d t : Nibble} (h : t ≤ d + 1#4) : reaches d t = true := by simpa [reaches] using h

theorem reaches_false {d t : Nibble} (h : d + 1#4 < t) : reaches d t = false := by simpa [reaches] using h

/-- The carry stages leave the low nibble alone. -/
theorem carry4_lowNibble (s : State) : (carry4 s).counter.toNat % 16 = s.counter.toNat % 16 := by
  unfold carry4; split <;> simp; omega

theorem carry3_lowNibble (s : State) : (carry3 s).counter.toNat % 16 = s.counter.toNat % 16 := by
  have key : (s.counter ^^^ 0x0010#16).toNat % 16 = s.counter.toNat % 16 := by
    rw [BitVec.toNat_xor]
    have := Nat.xor_mod_two_pow (a := s.counter.toNat) (b := 16) (n := 4)
    norm_num at this
    simpa using this
  unfold carry3; split
  · split
    · rw [carry4_lowNibble]; exact key
    · exact key
  · rfl

theorem windowSize_cases (m : BitVec 2) :
    windowSize m = 0x1000 ∨ windowSize m = 0x4000 ∨ windowSize m = 0x10000 := by
  revert m; decide

/-- The masked counter is the counter modulo the smaller of the window and the RAM. -/
theorem masked_toNat (s : State) :
    (s.counter &&& videoMask s).toNat = s.counter.toNat % min (windowSize (fieldM s.reg)) s.ramCap.bytes := by
  have : ∃ k, k ≤ 16 ∧ min (windowSize (fieldM s.reg)) s.ramCap.bytes = 2 ^ k := by
    rcases windowSize_cases (fieldM s.reg) with h | h | h <;> rw [h] <;> cases s.ramCap <;>
      first
      | exact ⟨12, by omega, rfl⟩
      | exact ⟨13, by omega, rfl⟩
      | exact ⟨14, by omega, rfl⟩
      | exact ⟨15, by omega, rfl⟩
      | exact ⟨16, by omega, rfl⟩
  obtain ⟨k, hk, e⟩ := this
  have := Nat.pow_le_pow_right (n := 2) (by omega) hk
  have := Nat.two_pow_pos k
  rw [videoMask, e, BitVec.toNat_and, BitVec.toNat_ofNat, Nat.mod_eq_of_lt (by omega),
    Nat.and_two_pow_sub_one_eq_mod]

theorem videoRead_suppressed {s : State} (h : s.endc = true) :
    videoRead s = (Config.freeByte s.draws, s.countDraw) := by
  simp [videoRead, h]

theorem videoRead_ram {s : State} (h : s.endc = false) :
    videoRead s = readSlot 0 (s.counter.toNat % min (windowSize (fieldM s.reg)) s.ramCap.bytes) s := by
  rw [← masked_toNat]; simp [videoRead, h]

theorem xThreshold_le (v : BitVec 3) : xThreshold v ≤ 3#4 := by revert v; decide

theorem yThreshold_le (v : BitVec 3) : yThreshold v ≤ 12#4 := by revert v; decide

/-- A sub-divider that does not reach its threshold stays below every bound one under the threshold's. -/
theorem succ_le_of_not_reaches {d t m : Nibble} (h : reaches d t = false) (ht : t ≤ m + 1#4) (hm : m ≤ 14#4) :
    d + 1#4 ≤ m := by
  simp only [reaches, decide_eq_false_iff_not, BitVec.le_def, BitVec.toNat_add, BitVec.toNat_ofNat] at *
  have := d.isLt
  have := t.isLt
  omega

end Sys2Proof.Machine
end

