-- ==== Sys2Proof/Tests/Slice0.lean ====
section
/-! SUPPORT. Tests. The expected values are those of spec/95_test_vectors.md and of the encoding tables of
spec/30_encoding.md, named at each test; the witnesses meet the hypotheses of the statements. -/

namespace Sys2Proof.Tests

open Sys2Proof Sys2Proof.Machine

/-- The instance of 95_test_vectors.md (RAMCAP 65536, endc 0), with nothing given out yet. -/
def chip (reg counter : Word := 0) (xdiv ydiv : Nibble := 0) : State :=
  { State.reset with reg := reg, counter := counter, xdiv := xdiv, ydiv := ydiv, outputs := [] }

/-- That instance with another capacity. -/
def sized (cap : RamCap) (reg : Word) : State := { chip reg with ramCap := cap }

/-- Something read off the next state. -/
def after {α : Type} (r : Result) (f : State → α) : Option α :=
  match r with
  | .next t => some (f t)
  | .fault _ => none
  | .refused _ => none

/-- The counter and the sub-dividers. -/
def video (s : State) : Word × Nibble × Nibble := (s.counter, s.xdiv, s.ydiv)

/-- The register and what was given out. -/
def control (s : State) : Word × List Output := (s.reg, s.outputs)

/-! ### Well-formedness: each check refuses an ill-formed operation (30_encoding.md R85) -/

theorem test_wf_refuses_busRd_in_control_range :
    (Instr.busRd 0xFFC0#16).wf = false ∧ (Instr.busRd 0xFFDF#16).wf = false := by decide

theorem test_wf_refuses_busWr_in_control_range :
    (Instr.busWr 0xFFC0#16 0x5A#8).wf = false ∧ (Instr.busWr 0xFFDF#16 0x5A#8).wf = false := by decide

theorem test_wf_accepts_the_neighbours :
    (Instr.busRd 0xFFBF#16).wf = true ∧ (Instr.busRd 0xFFE0#16).wf = true ∧
    (Instr.busWr 0xFFBF#16 0x5A#8).wf = true ∧ (Instr.busWr 0xFFE0#16 0x5A#8).wf = true := by decide

/-! ### Decoding: words written out bit by bit (30_encoding.md R81 to R89) -/

/-- Format CW, the address 0b11111111110 followed by the offset of 30_encoding.md R83: V and F. -/
theorem test_decode_video_and_offset_writes :
    decode (.busWrite 0b1111111111000000#16 0x00#8) = .ok .clrV0 ∧
    decode (.busWrite 0b1111111111000001#16 0x00#8) = .ok .setV0 ∧
    decode (.busWrite 0b1111111111000010#16 0x00#8) = .ok .clrV1 ∧
    decode (.busWrite 0b1111111111000011#16 0x00#8) = .ok .setV1 ∧
    decode (.busWrite 0b1111111111000100#16 0x00#8) = .ok .clrV2 ∧
    decode (.busWrite 0b1111111111000101#16 0x00#8) = .ok .setV2 ∧
    decode (.busWrite 0b1111111111000110#16 0x00#8) = .ok .clrF0 ∧
    decode (.busWrite 0b1111111111000111#16 0x00#8) = .ok .setF0 ∧
    decode (.busWrite 0b1111111111001000#16 0x00#8) = .ok .clrF1 ∧
    decode (.busWrite 0b1111111111001001#16 0x00#8) = .ok .setF1 ∧
    decode (.busWrite 0b1111111111001010#16 0x00#8) = .ok .clrF2 ∧
    decode (.busWrite 0b1111111111001011#16 0x00#8) = .ok .setF2 ∧
    decode (.busWrite 0b1111111111001100#16 0x00#8) = .ok .clrF3 ∧
    decode (.busWrite 0b1111111111001101#16 0x00#8) = .ok .setF3 ∧
    decode (.busWrite 0b1111111111001110#16 0x00#8) = .ok .clrF4 ∧
    decode (.busWrite 0b1111111111001111#16 0x00#8) = .ok .setF4 ∧
    decode (.busWrite 0b1111111111010000#16 0x00#8) = .ok .clrF5 ∧
    decode (.busWrite 0b1111111111010001#16 0x00#8) = .ok .setF5 ∧
    decode (.busWrite 0b1111111111010010#16 0x00#8) = .ok .clrF6 ∧
    decode (.busWrite 0b1111111111010011#16 0x00#8) = .ok .setF6 := by decide

/-- Format CW, with a datum that is ignored: P1, R, M and TY. -/
theorem test_decode_page_rate_size_and_type_writes :
    decode (.busWrite 0b1111111111010100#16 0xFF#8) = .ok .clrP1 ∧
    decode (.busWrite 0b1111111111010101#16 0xFF#8) = .ok .setP1 ∧
    decode (.busWrite 0b1111111111010110#16 0xFF#8) = .ok .clrR0 ∧
    decode (.busWrite 0b1111111111010111#16 0xFF#8) = .ok .setR0 ∧
    decode (.busWrite 0b1111111111011000#16 0xFF#8) = .ok .clrR1 ∧
    decode (.busWrite 0b1111111111011001#16 0xFF#8) = .ok .setR1 ∧
    decode (.busWrite 0b1111111111011010#16 0xFF#8) = .ok .clrM0 ∧
    decode (.busWrite 0b1111111111011011#16 0xFF#8) = .ok .setM0 ∧
    decode (.busWrite 0b1111111111011100#16 0xFF#8) = .ok .clrM1 ∧
    decode (.busWrite 0b1111111111011101#16 0xFF#8) = .ok .setM1 ∧
    decode (.busWrite 0b1111111111011110#16 0xFF#8) = .ok .clrTY ∧
    decode (.busWrite 0b1111111111011111#16 0xFF#8) = .ok .setTY := by decide

/-- Formats CR and BUS (30_encoding.md R84, R85, R95). -/
theorem test_decode_bus_accesses :
    decode (.busRead 0b1111111111000000#16) = .ok (.ctrlRd 0b00000#5) ∧
    decode (.busRead 0b1111111111010110#16) = .ok (.ctrlRd 0b10110#5) ∧
    decode (.busRead 0b1111111110111111#16) = .ok (.busRd 0xFFBF#16) ∧
    decode (.busRead 0b1111111111100000#16) = .ok (.busRd 0xFFE0#16) ∧
    decode (.busWrite 0b0001000000000000#16 0b01011010#8) = .ok (.busWr 0x1000#16 0x5A#8) := by decide

/-- Format VA (30_encoding.md R86): the sentinel, its neighbour, and bit 0 of two other offsets. -/
theorem test_decode_address_requests :
    decode (.addressRequest 0b11111111111111111111111111111111#32) = .ok .vreqRestart ∧
    decode (.addressRequest 0b11111111111111111111111111111110#32) = .ok (.vreq 0#1) ∧
    decode (.addressRequest 0b00000000000000000000000000000000#32) = .ok (.vreq 0#1) ∧
    decode (.addressRequest 0b00000000000000000000000000011111#32) = .ok (.vreq 1#1) := by decide

/-- Formats HS, ED and ADM (30_encoding.md R87 to R89). -/
theorem test_decode_lines_and_calls :
    decode (.horizontalSync 0b1#1) = .ok .hsRise ∧ decode (.horizontalSync 0b0#1) = .ok .hsFall ∧
    decode (.externalDisable 0b1#1) = .ok .endcSet ∧ decode (.externalDisable 0b0#1) = .ok .endcClr ∧
    decode .reset = .ok .reset ∧
    decode (.attach 65536 14318180 4 { ram := [], rom := [] }) = .ok (.attach 65536 14318180 4 { ram := [], rom := [] }) := by
  decide

/-- The host's restore is no operation (30_encoding.md R80). -/
theorem test_decode_rejects_restore :
    decode (.restore { reg := 0, endc := false, counter := 0, xdiv := 0, ydiv := 0 }) =
      .error .restoreIsNoOperation := by decide

/-- Words of the opcode table, by the widths it gives (log entry 3). -/
theorem test_decode_table_words :
    decodeTableWord 8 0x1F = some .setTY ∧ decodeTableWord 5 0x00 = some .clrV0 ∧
    decodeTableWord 16 0xFFC0 = some (.ctrlRd 0#5) ∧ decodeTableWord 16 0x0000 = some (.busRd 0x0000#16) ∧
    decodeTableWord 32 0xFFFFFFFF = some .vreqRestart ∧ decodeTableWord 32 0 = some (.vreq 0#1) ∧
    decodeTableWord 1 1 = some .endcSet ∧ decodeTableWord 1 0 = some .endcClr ∧
    decodeTableWord 0 0 = some .reset ∧ decodeTableWord 8 0x20 = none := by decide

/-! ### Reset -/

/-- 10_state.md R40 and 44_host_binding.md R215: the two announcements of RESET. -/
theorem test_reset_outputs_are_the_announcements :
    State.reset.outputs = [.install (view State.reset), .clockUpdate (clock State.reset)] := by decide

theorem test_reset_memory_is_canonical :
    Memory.wf State.reset.host.ram = true ∧ Memory.wf State.reset.host.rom = true := by decide

/-- A step with a table word placed runs its operation first: SET.TY (V5). -/
theorem test_step_runs_the_placed_word :
    after (step (State.reset.withFetchWord 8 0x1F)) (fun t => (t.reg, t.pending)) = some (0x8000#16, []) := by decide

/-! ### Control writes (95_test_vectors.md V.1) -/

/-- From 0x0000 every odd offset gives the bit and its mask, every even one nothing (S1). -/
theorem test_control_writes_from_zero :
    ∀ o : ControlOffset, after (exec (controlInstr o) (chip 0x0000)) (fun t => (t.reg, t.outputs.head?)) =
      if o.toNat % 2 = 1 then some (1#16 <<< (o.toNat / 2), some (.changeMask (1#16 <<< (o.toNat / 2))))
      else some (0x0000#16, some (.changeMask 0#16)) := by decide

/-- From 0xFFFF every even offset clears the bit, every odd one does nothing (S1). -/
theorem test_control_writes_from_ones :
    ∀ o : ControlOffset, after (exec (controlInstr o) (chip 0xFFFF)) (fun t => (t.reg, t.outputs.head?)) =
      if o.toNat % 2 = 0 then
        some (0xFFFF#16 ^^^ (1#16 <<< (o.toNat / 2)), some (.changeMask (1#16 <<< (o.toNat / 2))))
      else some (0xFFFF#16, some (.changeMask 0#16)) := by decide

/-- V1 and V2. -/
theorem test_setV0 :
    after (exec .setV0 (chip 0x0000)) control = some (0x0001#16, [.changeMask 0x0001#16]) ∧
    after (exec .setV0 (chip 0x0001)) control = some (0x0001#16, [.changeMask 0x0000#16]) := by decide

/-- V3 and V4. -/
theorem test_clrV0 :
    after (exec .clrV0 (chip 0x0001)) control = some (0x0000#16, [.changeMask 0x0001#16]) ∧
    after (exec .clrV0 (chip 0x0000)) control = some (0x0000#16, [.changeMask 0x0000#16]) := by decide

/-- V5 and V6: the view is announced. -/
theorem test_setTY :
    after (exec .setTY (chip 0x0000)) control =
      some (0x8000#16, [.changeMask 0x8000#16, .install (.active .ram4K false true)]) := by decide

theorem test_clrTY :
    after (exec .clrTY (chip 0xFFFF)) control =
      some (0x7FFF#16, [.changeMask 0x8000#16, .install (.active .ramPaged true true)]) := by decide

/-- V7, and V8 where the recomputed view is the same. -/
theorem test_setP1 :
    after (exec .setP1 (chip 0x4000)) control =
      some (0x4400#16, [.changeMask 0x0400#16, .install (.active .ramPaged true true)]) ∧
    after (exec .setP1 (chip 0x0000)) control =
      some (0x0400#16, [.changeMask 0x0400#16, .install (.active .ram4K true true)]) := by decide

/-- V9: the clock doubles, 14318180/8 Hz. -/
theorem test_setR0 :
    after (exec .setR0 (chip 0x0000)) control =
      some (0x0800#16, [.changeMask 0x0800#16, .clockUpdate { base := 14318180, divisor := 8 }]) := by decide

/-- V9a: announced, the same value. -/
theorem test_setR1 :
    after (exec .setR1 (chip 0x0800)) control =
      some (0x1800#16, [.changeMask 0x1000#16, .clockUpdate { base := 14318180, divisor := 8 }]) := by decide

/-- V9b. -/
theorem test_setF6 :
    after (exec .setF6 (chip 0x0000)) (fun t => (t.reg, displayOffset t.reg)) = some (0x0200#16, 0x8000#16) := by decide

/-- V9c and V9d. -/
theorem test_setM1 :
    after (exec .setM1 (chip 0x2000)) control =
      some (0x6000#16, [.changeMask 0x4000#16, .install (.active .ram64KStatic true true)]) := by decide

theorem test_setM0 :
    after (exec .setM0 (chip 0xFFFF)) control = some (0xFFFF#16, [.changeMask 0x0000#16]) := by decide

/-- V9e. -/
theorem test_clrF2 :
    after (exec .clrF2 (chip 0x1234)) control = some (0x1214#16, [.changeMask 0x0020#16]) := by decide

/-- CTRL.RD of 95_test_vectors.md V.1: the register stays, one byte is drawn. -/
theorem test_ctrlRd :
    after (exec (.ctrlRd 31#5) (chip 0x8001)) (fun t => (t.reg, t.draws)) = some (0x8001#16, 1) := by decide

/-! ### The bus (95_test_vectors.md V.2 and P1, P4) -/

/-- V10 to V17, V20, V21: 16K, RAM, ROM, I/O and the vector mirror at their edges. -/
theorem test_busDecode_16K :
    busDecode 0x0000#16 (sized .k16 0x2000) = .ram 0x0000 ∧ busDecode 0x3FFF#16 (sized .k16 0x2000) = .ram 0x3FFF ∧
    busDecode 0x4000#16 (sized .k16 0x2000) = .unmapped ∧ busDecode 0x7FFF#16 (sized .k16 0x2000) = .unmapped ∧
    busDecode 0x8000#16 (sized .k16 0x2000) = .rom 0x0000 ∧ busDecode 0xFEFF#16 (sized .k16 0x2000) = .rom 0x7EFF ∧
    busDecode 0xFF00#16 (sized .k16 0x2000) = .io 0x00 ∧ busDecode 0xFFBF#16 (sized .k16 0x2000) = .io 0xBF ∧
    busDecode 0xFFE0#16 (sized .k16 0x2000) = .rom 0x3FE0 ∧ busDecode 0xFFFF#16 (sized .k16 0x2000) = .rom 0x3FFF := by
  decide

/-- V22 to V27 (TY), V29 (no mirroring), V37, V38 (all RAM), V41 to V44 (paged), V48 (D13). -/
theorem test_busDecode_TY_and_paging :
    busDecode 0x8000#16 (sized .k16 0xA000) = .unmapped ∧ busDecode 0xFF00#16 (sized .k16 0xA000) = .io 0x00 ∧
    busDecode 0xFFE0#16 (sized .k16 0xA000) = .rom 0x3FE0 ∧ busDecode 0x1000#16 (sized .k64 0x0000) = .unmapped ∧
    busDecode 0x8000#16 (sized .k64 0xC000) = .ram 0x8000 ∧ busDecode 0xFEFF#16 (sized .k64 0xC000) = .ram 0xFEFF ∧
    busDecode 0x0123#16 (sized .k64 0x4400) = .ram 0x8123 ∧ busDecode 0x7FFF#16 (sized .k64 0x4400) = .ram 0xFFFF ∧
    busDecode 0x8000#16 (sized .k64 0xE400) = .ram 0x8000 ∧ busDecode 0x1000#16 (sized .k64 0x0400) = .unmapped := by
  decide

/-- V59, V61, V63 to V67, V69, V71, V72 (the clamp), V74, V75, V78 (endc). -/
theorem test_busDecode_clamp_and_endc :
    busDecode 0x8000#16 (sized .k32 0xC000) = .unmapped ∧ busDecode 0x0000#16 (sized .k32 0x4400) = .unmapped ∧
    busDecode 0x0FFF#16 (sized .k4 0x2000) = .ram 0x0FFF ∧ busDecode 0x1000#16 (sized .k4 0x2000) = .unmapped ∧
    busDecode 0x1000#16 (sized .k4 0x6000) = .unmapped ∧ busDecode 0x1000#16 (sized .k8 0x0000) = .unmapped ∧
    busDecode 0x1FFF#16 (sized .k8 0x2000) = .ram 0x1FFF ∧ busDecode 0x2000#16 (sized .k8 0x2000) = .unmapped ∧
    busDecode 0x0000#16 { chip 0x4000 with endc := true } = .unmapped ∧
    busDecode 0x8000#16 { chip 0x4000 with endc := true } = .unmapped ∧
    busDecode 0xFFE0#16 { chip 0x4000 with endc := true } = .unmapped := by decide

/-- The recompute values of 95_test_vectors.md V.2. -/
theorem test_recompute :
    recompute 0x0000#16 .k64 false = .active .ram4K true true ∧ recompute 0x2000#16 .k64 false = .active .ram16K true true ∧
    recompute 0x4000#16 .k64 false = .active .ram64KDynamic true true ∧
    recompute 0x6000#16 .k64 false = .active .ram64KStatic true true ∧
    recompute 0x4400#16 .k64 false = .active .ramPaged true true ∧
    recompute 0x6400#16 .k64 false = .active .ramPaged true true ∧
    recompute 0x0400#16 .k64 false = .active .ram4K true true ∧
    recompute 0x8000#16 .k64 false = .active .ram4K false true ∧ recompute 0xFFFF#16 .k64 true = .suppressed := by decide

/-- P1, operation 9: RAM[0x8123] = 0x22 read at 0x8123. -/
theorem test_busRd :
    after (exec (.busRd 0x8123#16) { chip 0xC400 with host := { ram := [(0x0123, 0x11#8), (0x8123, 0x22#8)], rom := [] } })
      (fun t => (t.outputs, t.draws)) = some ([.slotRead 0 0x8123, .byte 0x22#8], 0) := by decide

/-- P1, operation 2: the vector mirror, ROM[0x3FFE], slot 2 by the boundaries of log entry 11. -/
theorem test_busRd_vector_mirror :
    after (exec (.busRd 0xFFFE#16) { chip with host := { ram := [], rom := [(0x3FFE, 0xA0#8)] } })
      (fun t => t.outputs) = some [.slotRead 2 0x3FFE, .byte 0xA0#8] := by decide +kernel

/-- P1, operation 6: paged, RAM[0x8123] = 0x22. -/
theorem test_busWr :
    after (exec (.busWr 0x0123#16 0x22#8) { chip 0x4400 with host := { ram := [(0x0123, 0x11#8)], rom := [] } })
      (fun t => t.host.ram) = some [(0x0123, 0x11#8), (0x8123, 0x22#8)] := by decide

/-- P4, operation 6: under endc a bus write has no effect. -/
theorem test_busWr_suppressed :
    exec (.busWr 0x1000#16 0xFF#8) { chip 0x2000 with endc := true } = .next { chip 0x2000 with endc := true } := by rfl

/-- V130. -/
theorem test_endcSet :
    after (exec .endcSet (chip 0x4000)) (fun t => (t.endc, t.outputs)) = some (true, [.install .suppressed]) ∧
    after (exec .endcSet { chip 0x4000 with endc := true }) (fun t => (t.endc, t.outputs)) = some (true, []) := by decide

/-- V131, and the view of P4, operation 8. -/
theorem test_endcClr :
    after (exec .endcClr { chip 0xA000 with endc := true }) (fun t => (t.endc, t.outputs)) =
      some (false, [.install (.active .ram16K false true)]) ∧
    after (exec .endcClr (chip 0xA000)) (fun t => (t.endc, t.outputs)) = some (false, []) := by decide

/-! ### The clock (95_test_vectors.md V.3) -/

/-- V80, V81, V82, V86 as quotients: 894886.25 Hz and 1789772.5 Hz are 14318180/16 and 14318180/8. -/
theorem test_clock :
    clock (chip 0x0000) = { base := 14318180, divisor := 16 } ∧ clock (chip 0x0800) = { base := 14318180, divisor := 8 } ∧
    clock (chip 0x1000) = { base := 14318180, divisor := 16 } ∧ clock (chip 0xE7FF) = { base := 14318180, divisor := 16 } := by
  decide

/-! ### The video address (95_test_vectors.md V.4, V.5) -/

/-- VREQ.RESTART: F = 127, and F = 64 with V = 7. -/
theorem test_vreqRestart :
    after (exec .vreqRestart (chip 0x03F8 0x1234 2 11)) video = some (0xFE00#16, 0, 0) ∧
    after (exec .vreqRestart (chip 0x0207 0x1234 2 11)) video = some (0x8000#16, 0, 0) := by decide

/-- V90, V91, V94, V95, V96, V97, V98, V99a, V99b. -/
theorem test_vreq :
    after (exec (.vreq 0) (chip 0 0x0000)) video = some (0x0000#16, 0, 0) ∧
    after (exec (.vreq 1) (chip 0 0x0000)) video = some (0x0001#16, 0, 0) ∧
    after (exec (.vreq 0) (chip 0 0x000F)) video = some (0x0010#16, 0, 0) ∧
    after (exec (.vreq 0) (chip 0 0x001F)) video = some (0x0000#16, 0, 1) ∧
    after (exec (.vreq 0) (chip 0 0x001F 0 11)) video = some (0x0020#16, 0, 0) ∧
    after (exec (.vreq 0) (chip 0 0xFFFF 0 11)) video = some (0x0000#16, 0, 0) ∧
    after (exec (.vreq 0) (chip 1 0x000F 0 0)) video = some (0x0000#16, 1, 0) ∧
    after (exec (.vreq 0) (chip 1 0x000F 2 0)) video = some (0x0010#16, 0, 0) ∧
    after (exec (.vreq 0) (chip 1 0x001F 2 0)) video = some (0x0020#16, 0, 0) := by decide

/-- V99c, V99d, V99f, V99h, V99i, V99j, V99k, V99m, V99o. -/
theorem test_vreq_other_modes :
    after (exec (.vreq 0) (chip 2 0x001F 0 2)) video = some (0x0020#16, 0, 0) ∧
    after (exec (.vreq 0) (chip 2 0x001F 0 1)) video = some (0x0000#16, 0, 2) ∧
    after (exec (.vreq 0) (chip 3 0x000F 1 0)) video = some (0x0010#16, 0, 0) ∧
    after (exec (.vreq 0) (chip 4 0x001F 0 0)) video = some (0x0000#16, 0, 1) ∧
    after (exec (.vreq 0) (chip 4 0x001F 0 1)) video = some (0x0020#16, 0, 0) ∧
    after (exec (.vreq 0) (chip 5 0x001F 0 0)) video = some (0x0020#16, 0, 0) ∧
    after (exec (.vreq 0) (chip 6 0x000F 0 0)) video = some (0x0010#16, 0, 0) ∧
    after (exec (.vreq 0) (chip 7 0xFFFF 0 0)) video = some (0x0000#16, 0, 0) ∧
    after (exec (.vreq 0) (chip 3 0x000F 2 0)) video = some (0x0010#16, 0, 0) := by decide

/-- The example below the mask table: counter 0x8123, M = 0 and M = 2 with P1. -/
theorem test_video_read :
    after (exec (.vreq 1) { chip 0x0000 0x8123 with host := { ram := [(0x0123, 0x11#8), (0x8123, 0x22#8)], rom := [] } })
      (fun t => t.outputs) = some [.slotRead 0 0x0123, .byte 0x11#8] ∧
    after (exec (.vreq 1) { chip 0x4400 0x8123 with host := { ram := [(0x0123, 0x11#8), (0x8123, 0x22#8)], rom := [] } })
      (fun t => t.outputs) = some [.slotRead 0 0x8123, .byte 0x22#8] := by decide

/-- The mask table of 95_test_vectors.md V.4, a row and its corners. -/
theorem test_video_mask :
    videoMask (sized .k4 0x4000) = 0x0FFF#16 ∧ videoMask (sized .k8 0x0000) = 0x0FFF#16 ∧
    videoMask (sized .k8 0x2000) = 0x1FFF#16 ∧ videoMask (sized .k16 0x6000) = 0x3FFF#16 ∧
    videoMask (sized .k32 0x4000) = 0x7FFF#16 ∧ videoMask (sized .k64 0x0000) = 0x0FFF#16 ∧
    videoMask (sized .k64 0x2000) = 0x3FFF#16 ∧ videoMask (sized .k64 0x4000) = 0xFFFF#16 := by decide

/-- V100 to V105. -/
theorem test_hsRise :
    after (exec .hsRise (chip 0 0x001F 0 0)) video = some (0x0000#16, 0, 1) ∧
    after (exec .hsRise (chip 0 0x000F 0 0)) video = some (0x0000#16, 0, 0) ∧
    after (exec .hsRise (chip 0 0x0010 0 11)) video = some (0x0020#16, 0, 0) ∧
    after (exec .hsRise (chip 0 0x0008 0 0)) video = some (0x0000#16, 0, 0) ∧
    after (exec .hsRise (chip 1 0x0008 0 0)) video = some (0x0000#16, 1, 0) ∧
    after (exec .hsRise (chip 1 0x0008 2 0)) video = some (0x0010#16, 0, 0) := by decide

/-- V106, V107, V109, V111, V113, V116, V117, V119, V120. -/
theorem test_hsRise_other_modes :
    after (exec .hsRise (chip 1 0x0018 2 0)) video = some (0x0020#16, 0, 0) ∧
    after (exec .hsRise (chip 1 0x0017 2 0)) video = some (0x0010#16, 2, 0) ∧
    after (exec .hsRise (chip 2 0x0015 0 2)) video = some (0x0020#16, 0, 0) ∧
    after (exec .hsRise (chip 3 0x003C 1 0)) video = some (0x0040#16, 0, 0) ∧
    after (exec .hsRise (chip 4 0x0030 0 1)) video = some (0x0040#16, 0, 0) ∧
    after (exec .hsRise (chip 5 0x0009 0 0)) video = some (0x0010#16, 0, 0) ∧
    after (exec .hsRise (chip 6 0xFFF0 0 0)) video = some (0x0000#16, 0, 0) ∧
    after (exec .hsRise (chip 7 0x001F 0 0)) video = some (0x001F#16, 0, 0) ∧
    after (exec .hsRise (chip 1 0xFFF8 2 0)) video = some (0x0000#16, 0, 0) := by decide

/-- `HS.FALL` in any state: no change. -/
theorem test_hsFall : exec .hsFall (chip 1 0xFFF8 2 5) = .next (chip 1 0xFFF8 2 5) := by rfl

/-! ### Attach, reset, restore (95_test_vectors.md V.6) -/

/-- V133. -/
theorem test_attach :
    after (exec (.attach 16384 14318180 4 { ram := [(0x3FFF, 1#8), (0x4000, 2#8)], rom := [] })
        { chip 0xFFFF 0x1234 2 11 with endc := true })
      (fun t => (t.reg, t.endc, video t, t.ramCap, t.host.ram)) =
      some (0x0000#16, false, (0x0000#16, 0, 0), .k16, [(0x3FFF, 1#8)]) := by rfl

/-- V132. -/
theorem test_attach_illegal_capacity :
    exec (.attach 12000 14318180 4 { ram := [], rom := [] }) (chip) = .fault (.configurationError 12000) ∧
    exec (.attach 4097 14318180 4 { ram := [], rom := [] }) (chip) = .fault (.configurationError 4097) := by exact ⟨rfl, rfl⟩

/-- V134. -/
theorem test_reset :
    after (exec .reset { chip 0xE404 0x1234 1 7 with endc := true })
      (fun t => (t.reg, t.endc, video t, t.outputs)) =
      some (0x0000#16, true, (0x0000#16, 0, 0), [.install .suppressed, .clockUpdate { base := 14318180, divisor := 16 }]) := by
  decide

/-- 10_state.md R42: the sub-dividers modulo 16. -/
theorem test_restore :
    after (step { chip with pending := [.restore { reg := 0x4400, endc := false, counter := 0x1234, xdiv := 0x12, ydiv := 0x1B }] })
      (fun t => (t.reg, video t, t.outputs.head?)) =
      some (0x4400#16, (0x1234#16, 2, 11), some (.install (.active .ramPaged true true))) := by decide

/-! ### Witnesses: every statement with hypotheses has a state and operands that meet them -/

/-- A legal state no reset gives: bytes in both memories, a call pending. -/
def used : State :=
  { chip 0xC000 0x001F 0 11 with
    host := { ram := [(0x0123, 0x11#8), (0xFEFF, 0x22#8)], rom := [(0x7EFF, 0x33#8)] }
    pending := [.busWrite 0x0123#16 0x44#8, .restore { reg := 0, endc := true, counter := 0, xdiv := 15, ydiv := 15 }]
    outputs := [.install (.active .ram64KDynamic false true), .byte 0x00#8, .clockUpdate { base := 14318180, divisor := 16 }] }

theorem witness_DecodeOfEncodeIsTheOperation :
    (Instr.busRd 0xFFBF#16).wf = true ∧ (Instr.busWr 0xFFE0#16 0xFF#8).wf = true ∧ Instr.setTY.wf = true := by decide

theorem witness_EncodeOfDecodeClearsIgnoredBits :
    decode (.busWrite 0xFFDF#16 0xFF#8) = .ok .setTY ∧ decode (.addressRequest 0xFFFFFFFE#32) = .ok (.vreq 0#1) := by
  decide

theorem witness_BusAccessesAreClassifiedByAddress :
    (0xFFC0 ≤ (0xFFC0#16).toNat ∧ (0xFFC0#16).toNat ≤ 0xFFDF) ∧ (0xFFC0 ≤ (0xFFDF#16).toNat ∧ (0xFFDF#16).toNat ≤ 0xFFDF) ∧
    ((0xFFBF#16).toNat < 0xFFC0 ∨ 0xFFDF < (0xFFBF#16).toNat) ∧
    ((0xFFE0#16).toNat < 0xFFC0 ∨ 0xFFDF < (0xFFE0#16).toNat) := by decide

theorem witness_StepRunsTheDecodedOperation :
    used.pending = .busWrite 0x0123#16 0x44#8 ::
      [.restore { reg := 0, endc := true, counter := 0, xdiv := 15, ydiv := 15 }] ∧
    decode (.busWrite 0x0123#16 0x44#8) = .ok (.busWr 0x0123#16 0x44#8) := by decide

theorem witness_StepWithNothingPendingDoesNothing : State.reset.pending = [] := by decide

theorem witness_StepRestoresThePersistedState :
    { used with pending := used.pending.tail }.pending =
      [.restore { reg := 0, endc := true, counter := 0, xdiv := 15, ydiv := 15 }] := by decide

theorem witness_SetAndClearOfOneBit :
    (0x8000#16).getLsbD (15#4).toNat = !false ∧ (0x0000#16).getLsbD (0#4).toNat = !true := by decide

theorem witness_WritesOfDifferentBitsCommute : (0#4 : BitVec 4) ≠ 15#4 := by decide

theorem witness_RecomputeSelectsTheView :
    fieldM 0x0000#16 = 0#2 ∧ fieldM 0x2000#16 = 1#2 ∧ (fieldM 0x4000#16 = 2#2 ∧ fieldP1 0x4000#16 = false) ∧
    (fieldM 0x6000#16 = 3#2 ∧ fieldP1 0x6000#16 = false) ∧ (fieldM 0x4400#16 = 2#2 ∧ fieldP1 0x4400#16 = true) ∧
    (fieldM 0x6400#16 = 3#2 ∧ fieldP1 0x6400#16 = true) := by decide

/-- The regions of the table at both edges, in states whose mode the clause names. -/
theorem witness_BusDecodeTable_ram :
    (chip 0x0000).endc = false ∧ ((0x0FFF#16).toNat ≤ 0x0FFF ∧ (fieldM (chip 0x0000).reg).toNat ≤ 1) ∧
    (0x1000 ≤ (0x1000#16).toNat ∧ (0x1000#16).toNat ≤ 0x7FFF ∧ fieldM (chip 0x0000).reg = 0#2) ∧
    (0x1000 ≤ (0x3FFF#16).toNat ∧ (0x3FFF#16).toNat ≤ 0x3FFF ∧ fieldM (chip 0x2000).reg = 1#2) ∧
    (0x4000 ≤ (0x4000#16).toNat ∧ (0x7FFF#16).toNat ≤ 0x7FFF ∧ fieldM (chip 0x2000).reg = 1#2) := by decide

theorem witness_BusDecodeTable_64K :
    ((0x7FFF#16).toNat ≤ 0x7FFF ∧ 2 ≤ (fieldM (chip 0x4000).reg).toNat ∧ fieldP1 (chip 0x4000).reg = false) ∧
    ((0x0000#16).toNat ≤ 0x7FFF ∧ 2 ≤ (fieldM (chip 0x6400).reg).toNat ∧ fieldP1 (chip 0x6400).reg = true) ∧
    (0x8000 ≤ (0x8000#16).toNat ∧ (0x8000#16).toNat ≤ 0xFEFF ∧ fieldTY (chip 0xC000).reg = true ∧
      2 ≤ (fieldM (chip 0xC000).reg).toNat) := by decide

theorem witness_BusDecodeTable_rom_io :
    (0x8000 ≤ (0x8000#16).toNat ∧ (0xFEFF#16).toNat ≤ 0xFEFF ∧ fieldTY (chip 0x4000).reg = false) ∧
    (0x8000 ≤ (0xFEFF#16).toNat ∧ (0xFEFF#16).toNat ≤ 0xFEFF ∧ fieldTY (chip 0xA000).reg = true ∧
      (fieldM (chip 0xA000).reg).toNat ≤ 1) ∧
    (0xFF00 ≤ (0xFF00#16).toNat ∧ (0xFFBF#16).toNat ≤ 0xFFBF) ∧ 0xFFE0 ≤ (0xFFE0#16).toNat := by decide

theorem witness_TheActiveViewDecidesTheBus :
    view { chip with endc := true } = .suppressed ∧
    (view (chip 0xC400) = .active .ramPaged false true ∧ 0x8000 ≤ (0xFEFF#16).toNat ∧ (0xFEFF#16).toNat ≤ 0xFEFF) ∧
    (view (chip 0x2000) = .active .ram16K true true ∧ (0x7FFF#16).toNat ≤ 0x7FFF ∧ 0x8000 ≤ (0x8000#16).toNat) ∧
    (0xFF00 ≤ (0xFF00#16).toNat ∧ (0xFFBF#16).toNat ≤ 0xFFBF) := by decide

theorem witness_DecodeNeverLeavesTheRam :
    busDecode 0x3FFF#16 (sized .k16 0x2000) = .ram 0x3FFF ∧
    (view (sized .k4 0x2000) = .active .ram16K true true ∧ windowOffset .ram16K (0x1000#16).toNat = some 0x1000 ∧
      RamCap.k4.bytes ≤ 0x1000) ∧
    (view (sized .k64 0xC000) = .active .ram64KDynamic false true ∧
      windowOffset .ram64KDynamic (0xFEFF#16).toNat = some 0xFEFF ∧ 0xFEFF < RamCap.k64.bytes) := by decide

theorem witness_BusReadByTarget :
    (busDecode 0x0123#16 used = .ram 0x0123 ∧ Memory.read used.host.ram 0x0123 = some 0x11#8) ∧
    (busDecode 0x0000#16 used = .ram 0 ∧ Memory.read used.host.ram 0 = none) ∧
    (busDecode 0xFEFF#16 { used with reg := 0 } = .rom 0x7EFF ∧ Memory.read used.host.rom 0x7EFF = some 0x33#8) ∧
    (busDecode 0xFFE0#16 used = .rom 0x3FE0 ∧ Memory.read used.host.rom 0x3FE0 = none) := by
  refine ⟨?_, ?_, ?_, ?_⟩ <;> decide +kernel

theorem witness_BusReadByTarget_io_unmapped :
    busDecode 0xFFBF#16 used = .io 0xBF ∧ busDecode 0x4000#16 (chip 0x2000) = .unmapped := by decide

theorem witness_BusWriteByTarget :
    busDecode 0xFEFF#16 used = .ram 0xFEFF ∧ busDecode 0x8000#16 (chip 0x2000) = .rom 0 ∧
    busDecode 0xFF00#16 used = .io 0 ∧ busDecode 0x1000#16 (chip 0x0000) = .unmapped := by decide

theorem witness_BusWriteFrame :
    busDecode 0x0000#16 used = .ram 0 ∧ busDecode 0xFF00#16 used ≠ .ram 0 := by decide

theorem witness_BusReadReturnsTheByteWritten : busDecode 0x7FFF#16 (chip 0x4400) = .ram 0xFFFF := by decide

/-- An operation other than BUS.WR and ATTACH that completes. -/
theorem witness_OnlyBusWritesStore :
    (∀ a d, Instr.setTY ≠ .busWr a d) ∧ (∀ c b d h, Instr.setTY ≠ .attach c b d h) ∧
    ∃ t, exec .setTY used = .next t := ⟨by simp, by simp, _, rfl⟩

/-- RAM offset 0x0020 under the masked counter 0x0020. -/
theorem witness_VideoRequestReturnsTheByteTheCpuWrote :
    busDecode 0x0020#16 (chip 0x0000 0x8020) = .ram 0x0020 ∧
    (chip 0x0000 0x8020).counter.toNat % min (windowSize (fieldM (chip 0x0000 0x8020).reg)) (chip 0x0000 0x8020).ramCap.bytes =
      0x0020 := by decide

theorem witness_SlotBoundaries :
    0x1FFF < Config.wiring.romSlot2 ∧ (Config.wiring.romSlot2 ≤ 0x2000 ∧ 0x3FFF < Config.wiring.romSlot3) ∧
    (Config.wiring.romSlot2 ≤ Config.wiring.romSlot3 ∧ Config.wiring.romSlot3 ≤ 0x4000) ∧ 0x1F < Config.wiring.ioSlot5 ∧
    (Config.wiring.ioSlot5 ≤ 0x20 ∧ 0x3F < Config.wiring.ioSlot6) ∧
    (Config.wiring.ioSlot5 ≤ Config.wiring.ioSlot6 ∧ Config.wiring.ioSlot6 ≤ 0x40 ∧ 0x5F < Config.wiring.ioSlot7) ∧
    (Config.wiring.ioSlot6 ≤ Config.wiring.ioSlot7 ∧ Config.wiring.ioSlot7 ≤ 0x60) := by decide

theorem witness_EndcSetAndClear : (chip 0xC400).endc = false ∧ { chip 0xC400 with endc := true }.endc = true := by decide

theorem witness_EndcRoundTripRestoresTheView : (chip 0xC400).endc = false := by decide

theorem witness_OnlyR0AffectsTheClock :
    SameParams (chip 0x0800) (chip 0xF807 0x1234) ∧ fieldR0 (chip 0x0800).reg = fieldR0 (chip 0xF807 0x1234).reg :=
  ⟨⟨rfl, rfl, rfl⟩, rfl⟩

theorem witness_ClockDoublesWithR0 : 0 < (chip 0x0000).divider := by decide

/-- Each comparison of a sub-divider with its threshold: below and equal. -/
theorem witness_ThresholdTables :
    (chip 1 0 1 0).xdiv + 1#4 < xThreshold (fieldV (chip 1 0 1 0).reg) ∧
    (chip 1 0 2 0).xdiv + 1#4 = xThreshold (fieldV (chip 1 0 2 0).reg) ∧
    (chip 0 0 0 10).ydiv + 1#4 < yThreshold (fieldV (chip 0 0 0 10).reg) ∧
    (chip 0 0 0 11).ydiv + 1#4 = yThreshold (fieldV (chip 0 0 0 11).reg) := by decide

theorem witness_CarryStages :
    (chip 0 0 0 10).ydiv + 1#4 < yThreshold (fieldV (chip 0 0 0 10).reg) ∧
    yThreshold (fieldV (chip 0 0 0 11).reg) ≤ (chip 0 0 0 11).ydiv + 1#4 ∧
    (chip 1 0 1 0).xdiv + 1#4 < xThreshold (fieldV (chip 1 0 1 0).reg) ∧
    (xThreshold (fieldV (chip 3 0 2 0).reg) ≤ (chip 3 0 2 0).xdiv + 1#4 ∧ (chip 3 0 2 0).counter.getLsbD 4 = false) ∧
    (xThreshold (fieldV (chip 3 0x10 1 0).reg) ≤ (chip 3 0x10 1 0).xdiv + 1#4 ∧
      (chip 3 0x10 1 0).counter.getLsbD 4 = true) := by decide

theorem witness_VreqStepsTheCounter :
    0#1 = (chip 0 0xFFFE).counter.extractLsb' 0 1 ∧
    (1#1 ≠ (chip 0 0xFFFE).counter.extractLsb' 0 1 ∧ (chip 0 0xFFFE).counter.toNat % 16 ≠ 15) ∧
    (0#1 ≠ (chip 0 0xFFFF).counter.extractLsb' 0 1 ∧ (chip 0 0xFFFF).counter.toNat % 16 = 15) := by decide

theorem witness_VideoReadReturnsTheMaskedByte :
    (∃ t, exec .vreqRestart { used with endc := true } = .next t) ∧
    (∃ t, exec (.vreq 0#1) used = .next t ∧ used.endc = false ∧
      0x0020 = t.counter.toNat % min (windowSize (fieldM used.reg)) used.ramCap.bytes ∧
      Memory.read used.host.ram 0x0020 = none) ∧
    (∃ t, exec (.vreq 1#1) { used with counter := 0x0123 } = .next t ∧
      0x0123 = t.counter.toNat % min (windowSize (fieldM used.reg)) used.ramCap.bytes ∧
      Memory.read used.host.ram 0x0123 = some 0x11#8) :=
  ⟨⟨_, rfl⟩, ⟨_, rfl, by decide, by decide, by decide⟩, _, rfl, by decide, by decide⟩

theorem witness_HorizontalSyncByMode :
    (fieldV (chip 1).reg = 1#3 ∧ fieldV (chip 3).reg = 3#3 ∧ fieldV (chip 5).reg = 5#3) ∧
    (fieldV (chip 0).reg = 0#3 ∧ fieldV (chip 2).reg = 2#3 ∧ fieldV (chip 4).reg = 4#3 ∧ fieldV (chip 6).reg = 6#3) ∧
    fieldV (chip 7).reg = 7#3 ∧ (chip 1 0x0007).counter.getLsbD 3 = false ∧ (chip 1 0x0008).counter.getLsbD 3 = true ∧
    (chip 0 0x000F).counter.getLsbD 4 = false ∧ (chip 0 0x0010).counter.getLsbD 4 = true := by decide

theorem witness_CounterMovesOnlyByVideoEvents :
    Instr.hsFall ≠ .vreqRestart ∧ (∀ d, Instr.hsFall ≠ .vreq d) ∧ Instr.hsFall ≠ .hsRise ∧ Instr.hsFall ≠ .reset ∧
    (∀ c b d h, Instr.hsFall ≠ .attach c b d h) ∧ exec .hsFall used = .next used :=
  ⟨by simp, by simp, by simp, by simp, by simp, rfl⟩

theorem witness_WhoWritesTheRegisterAndTheFlag :
    (∃ t, exec .hsRise used = .next t) ∧ (∀ o, Instr.hsRise ≠ controlInstr o) ∧ Instr.hsRise ≠ .reset ∧
    (∀ c b d h, Instr.hsRise ≠ .attach c b d h) ∧ Instr.hsRise ≠ .endcSet ∧ Instr.hsRise ≠ .endcClr :=
  ⟨⟨_, rfl⟩, by decide, by simp, by simp, by simp, by simp⟩

/-- An operation that is no ATTACH, and an ATTACH that completes. -/
theorem witness_ParametersAreFixedAfterAttach :
    (∃ t, exec .reset used = .next t) ∧ (∀ c b d h, Instr.reset ≠ .attach c b d h) ∧
    ∃ t, exec (.attach 4096 1 1 { ram := [], rom := [] }) used = .next t := ⟨⟨_, rfl⟩, by simp, _, rfl⟩

theorem witness_AttachGivesAFreshInstance :
    (0 < 1 ∧ (0 : Rat) < 1) ∧ ((0 : Nat) = 0 ∨ (1 : Rat) ≤ 0) ∧ ((1 : Nat) = 0 ∨ (0 : Rat) ≤ 0) ∧
    (Memory.wf used.host.ram = true ∧ Memory.below RamCap.k64.bytes used.host.ram = true ∧
      Memory.wf used.host.rom = true ∧ Memory.below romRegionSize used.host.rom = true) := by decide

/-- The neighbours of the legal capacities. -/
theorem witness_AttachIllegalCapacityFaults :
    4095 ∉ [4096, 8192, 16384, 32768, 65536] ∧ 65537 ∉ [4096, 8192, 16384, 32768, 65536] ∧
    0 ∉ [4096, 8192, 16384, 32768, 65536] := by decide

theorem witness_OnlyAttachCanFault :
    exec (.attach 0 14318180 4 { ram := [], rom := [] }) used = .fault (.configurationError 0) := rfl

theorem witness_EveryOperationButAttachCompletes : ∀ c b d h, Instr.busRd 0x1000#16 ≠ .attach c b d h := by simp

theorem witness_StepKeepsTheStateLegal : Legal used ∧ ∃ t, step used = .next t := by
  refine ⟨?_, _, rfl⟩
  constructor <;> decide

/-- xdiv and ydiv at the top of their ranges. -/
theorem witness_SubDividersStayInRange :
    (∀ p rs, (chip 1 0x000F 2 11).pending ≠ .restore p :: rs) ∧ SubDividersInRange (chip 1 0x000F 2 11) ∧
    ∃ t, step (chip 1 0x000F 2 11) = .next t :=
  ⟨by simp [chip, State.reset], ⟨by decide, by decide⟩, _, rfl⟩

theorem witness_AnnouncementsStayCurrent : AnnouncedCurrent used ∧ ∃ t, step used = .next t :=
  ⟨⟨by decide, by decide⟩, _, rfl⟩

theorem witness_TheChipDependsOnItsFiveElementsOnly :
    SameChip used { used with ramCap := .k4, host := { ram := [], rom := [] }, pending := [], outputs := [], draws := 7 } ∧
    ∃ t t', exec .hsRise used = .next t ∧
      exec .hsRise { used with ramCap := .k4, host := { ram := [], rom := [] }, pending := [], outputs := [], draws := 7 } =
        .next t' :=
  ⟨⟨rfl, rfl, rfl, rfl, rfl⟩, _, _, rfl, rfl⟩

/-- 384 in mode 0, 96 in mode 1, 32 in mode 7 (95_test_vectors.md V.4). -/
theorem witness_PeriodWithoutSync :
    384 = 32 * (xThreshold (fieldV (chip 0).reg)).toNat * (yThreshold (fieldV (chip 0).reg)).toNat ∧
    96 = 32 * (xThreshold (fieldV (chip 1).reg)).toNat * (yThreshold (fieldV (chip 1).reg)).toNat ∧
    32 = 32 * (xThreshold (fieldV (chip 7).reg)).toNat * (yThreshold (fieldV (chip 7).reg)).toNat := by decide

end Sys2Proof.Tests
end

section
/-! The statements about the state (10_state.md): who moves the video counter and its sub-dividers, and which pairs
of capacity and mode are properly configured. -/

namespace Sys2Proof.Machine

/-- Settles O46: of the operations by shape, each that the hypotheses leave has a frame that holds the three elements
fixed (a control write changes `reg` and the outputs, an ENDC operation `endc` and the outputs). -/
theorem counterMovesOnlyByVideoEvents : Obligations.CounterMovesOnlyByVideoEvents := by
  intro i s t hrestart hvreq hrise hreset hattach h
  obtain ⟨o, rfl⟩ | ⟨o, rfl⟩ | ⟨a, rfl⟩ | ⟨a, d, rfl⟩ | rfl | rfl | rfl | ⟨d, rfl⟩ | rfl | rfl |
    ⟨c, b, d, host, rfl⟩ | rfl := instr_cases i
  · rw [exec_controlInstr_inv h]; exact ⟨rfl, rfl, rfl⟩
  · rw [exec_ctrlRd_inv h]; exact ⟨rfl, rfl, rfl⟩
  · rw [exec_busRd_inv h]; exact ⟨rfl, rfl, rfl⟩
  · obtain ⟨off, -, ht⟩ | ⟨-, ht⟩ := exec_busWr_inv h
    · rw [ht]; exact ⟨rfl, rfl, rfl⟩
    · rw [ht]; exact ⟨rfl, rfl, rfl⟩
  · rw [exec_endcSet_inv h, setEndcLine_eq]; exact ⟨rfl, rfl, rfl⟩
  · rw [exec_endcClr_inv h, setEndcLine_eq]; exact ⟨rfl, rfl, rfl⟩
  · exact absurd rfl hrestart
  · exact absurd rfl (hvreq d)
  · exact absurd rfl hrise
  · rw [exec_hsFall_inv h]; exact ⟨rfl, rfl, rfl⟩
  · exact absurd rfl (hattach c b d host)
  · exact absurd rfl hreset

/-- Settles O54: for each of the five capacities, the four modes are compared with the table of R31. -/
theorem properlyConfiguredPairs : Obligations.ProperlyConfiguredPairs := by
  intro cap m
  revert m
  cases cap
  all_goals decide

end Sys2Proof.Machine
end

section
/-! The statements about the control write and the control read themselves (40_control_write.md R100, R135). -/

namespace Sys2Proof.Machine

/-- R100 in terms of the offset alone: its upper bits number the bit of the register, its low bit is the sense. -/
theorem alterReg_eq (o : ControlOffset) (r : Word) :
    alterReg o r = if o.getLsbD 0 then r ||| (1#16 <<< (o.toNat / 2)) else r &&& ~~~ (1#16 <<< (o.toNat / 2)) := by
  rw [alterReg, setSense, bitMask_eq]

/-- A control read draws a byte and answers it, whatever the offset (40_control_write.md R135). -/
theorem exec_ctrlRd (o : ControlOffset) (s : State) : exec (.ctrlRd o) s = answer (draw s) := rfl

/-- Settles O10: the state answered is the one `controlWrite_eq` writes out; what follows the change mask in the
outputs is the reactions to it. -/
theorem alterSetsOrClearsOneBit : Obligations.AlterSetsOrClearsOneBit := by
  intro o s
  have hexec := (exec_controlInstr o s).trans (controlWrite_eq o s)
  exact ⟨_, reactions (changeMask o s.reg) { s with reg := alterReg o s.reg }, hexec, alterReg_eq o s.reg, rfl, rfl⟩

/-- Settles O21: the answer is the drawn byte, and drawing changes the count of draws only. -/
theorem controlReadReturnsADraw : Obligations.ControlReadReturnsADraw := by
  intro o s
  rw [exec_ctrlRd, draw_eq, answer_eq]
  rfl

end Sys2Proof.Machine
end

section
/-! The statements about the view's selection and the clamp of its RAM (41_memory_view.md R140, R146). -/

namespace Sys2Proof.Machine

/-- The RAM window of an active view, below 0x8000 or with the ROM overlay off: the offset in the window through the
clamp (41_memory_view.md R146, R147). -/
theorem busDecode_window {a : Word} {s : State} {v : RamView} {rom io : Bool} (hv : view s = .active v rom io)
    (ha : a.toNat ≤ 0x7FFF ∨ (a.toNat ≤ 0xFEFF ∧ rom = false)) :
    busDecode a s = clampRam s.ramCap (windowOffset v a.toNat) := by
  obtain ⟨hendc, rfl, rfl, -⟩ := view_active hv
  rw [← ramOffset_window]
  by_cases hlow : a.toNat ≤ 0x7FFF
  · exact busDecode_low hendc hlow
  · obtain ⟨hhigh, hrom⟩ := ha.resolve_left hlow
    have hTY : fieldTY s.reg = true := by simpa using hrom
    rw [busDecode_high hendc (by omega) hhigh, if_neg (by simp [hTY])]

theorem served_of_lt {cap : RamCap} {off : Nat} (h : off < cap.bytes) : served cap off = .ram off := if_pos h

theorem served_of_le {cap : RamCap} {off : Nat} (h : cap.bytes ≤ off) : served cap off = .unmapped :=
  if_neg (Nat.not_lt.mpr h)

/-- With endc = 0 the selection is the RAM view of M and P1, the ROM overlay by TY and the I/O overlay. -/
theorem recompute_active (reg : Word) (cap : RamCap) :
    recompute reg cap false = .active (ramView reg) (!fieldTY reg) true := rfl

theorem ramView_of_M0 {reg : Word} (hM : fieldM reg = 0#2) : ramView reg = .ram4K := by
  simp [ramView, hM]

theorem ramView_of_M1 {reg : Word} (hM : fieldM reg = 1#2) : ramView reg = .ram16K := by
  simp [ramView, hM]

theorem ramView_of_M2 {reg : Word} (hM : fieldM reg = 2#2) :
    ramView reg = if fieldP1 reg then .ramPaged else .ram64KDynamic := by
  simp [ramView, hM]

theorem ramView_of_M3 {reg : Word} (hM : fieldM reg = 3#2) :
    ramView reg = if fieldP1 reg then .ramPaged else .ram64KStatic := by
  simp [ramView, hM]

/-- Settles O25: a RAM target has passed the clamp, and in the window the decode is the clamp of the window's
offset. -/
theorem decodeNeverLeavesTheRam : Obligations.DecodeNeverLeavesTheRam := by
  intro a s
  refine ⟨fun off => busDecode_ram_below, fun v rom io off hview ha hoff => ?_⟩
  have hdecode : busDecode a s = served s.ramCap off := by
    rw [busDecode_window hview (ha.imp_right fun ⟨hle, hrom, _⟩ => ⟨hle, hrom⟩), hoff, clampRam_some]
  exact ⟨fun hlt => hdecode.trans (served_of_lt hlt), fun hle => hdecode.trans (served_of_le hle)⟩

/-- Settles O22: the selection is by endc, and its RAM view by M and, in the two 64K modes, by P1. -/
theorem recomputeSelectsTheView : Obligations.RecomputeSelectsTheView := by
  intro reg cap
  rw [recompute_active]
  refine ⟨rfl, fun hM => ?_, fun hM => ?_, fun hM hP => ?_, fun hM hP => ?_, fun hM hP => ?_⟩
  · rw [ramView_of_M0 hM]
  · rw [ramView_of_M1 hM]
  · simp [ramView_of_M2 hM, hP]
  · simp [ramView_of_M3 hM, hP]
  · obtain hM | hM := hM
    · simp [ramView_of_M2 hM, hP]
    · simp [ramView_of_M3 hM, hP]

end Sys2Proof.Machine
end

section
/-! The statement about what the clock depends on (42_clock.md R171). -/

namespace Sys2Proof.Machine

/-- The clock is the base clock over the divisor of R0: R1 is read and not used. -/
theorem clock_eq (s : State) :
    clock s = { base := s.baseClk, divisor := cpuDivisor s.divider (fieldR0 s.reg) } := rfl

/-- The clock depends on the base clock, the divider and R0 only. -/
theorem clock_congr {s t : State} (hbase : s.baseClk = t.baseClk) (hdivider : s.divider = t.divider)
    (hR0 : fieldR0 s.reg = fieldR0 t.reg) : clock s = clock t := by
  rw [clock_eq, clock_eq, hbase, hdivider, hR0]

/-- Settles O36: two of the parameters and R0 fix the whole clock, so its frequency too. -/
theorem onlyR0AffectsTheClock : Obligations.OnlyR0AffectsTheClock := by
  intro s t hparams hR0
  obtain ⟨-, hbase, hdivider⟩ := hparams
  exact congrArg ClockRate.hz (clock_congr hbase hdivider hR0)

end Sys2Proof.Machine
end

section
/-! The statements about the threshold tables and the horizontal sync (43_video_address.md R186, R188 to R190). -/

namespace Sys2Proof.Machine

variable {s : State}

/-! ### The carry stages, an equation per case -/

/-- carry4 below the threshold counts (R189). -/
theorem carry4_of_lt (h : s.ydiv + 1#4 < yThreshold (fieldV s.reg)) :
    carry4 s = { s with ydiv := s.ydiv + 1#4 } := by
  rw [carry4, reaches_false h]; rfl

/-- carry4 at or above the threshold zeroes `ydiv` and carries into bit 5 (R189). -/
theorem carry4_of_le (h : yThreshold (fieldV s.reg) ≤ s.ydiv + 1#4) :
    carry4 s = { s with ydiv := 0#4, counter := s.counter + 0x0020#16 } := by
  rw [carry4, reaches_true h]; rfl

/-- carry3 below the threshold counts (R188). -/
theorem carry3_of_lt (h : s.xdiv + 1#4 < xThreshold (fieldV s.reg)) :
    carry3 s = { s with xdiv := s.xdiv + 1#4 } := by
  rw [carry3, reaches_false h]; rfl

/-- carry3 at or above the threshold, with bit 4 clear, zeroes `xdiv` and sets the bit (R188). -/
theorem carry3_of_le_of_clear (h : xThreshold (fieldV s.reg) ≤ s.xdiv + 1#4) (h4 : s.counter.getLsbD 4 = false) :
    carry3 s = { s with xdiv := 0#4, counter := s.counter + 0x0010#16 } := by
  rw [carry3, reaches_true h, h4, toggle_of_clear h4]; rfl

/-- carry3 at or above the threshold, with bit 4 set, zeroes `xdiv`, clears the bit and enters carry4 (R188). -/
theorem carry3_of_le_of_set (h : xThreshold (fieldV s.reg) ≤ s.xdiv + 1#4) (h4 : s.counter.getLsbD 4 = true) :
    carry3 s = carry4 { s with xdiv := 0#4, counter := s.counter - 0x0010#16 } := by
  rw [carry3, reaches_true h, h4, toggle_of_set h4]; rfl

@[simp] theorem carry4_xdiv (s : State) : (carry4 s).xdiv = s.xdiv := by rw [carry4_frame]

/-- carry3 at or above the threshold zeroes `xdiv`, whatever bit 4 is. -/
theorem carry3_xdiv_of_le (h : xThreshold (fieldV s.reg) ≤ s.xdiv + 1#4) : (carry3 s).xdiv = 0#4 := by
  cases h4 : s.counter.getLsbD 4 with
  | false => rw [carry3_of_le_of_clear h h4]
  | true => rw [carry3_of_le_of_set h h4, carry4_xdiv]

/-- Settles O38: the tables entry by entry; a carry below the threshold counts, and one at it is a case of one that
reaches it. -/
theorem thresholdTables : Obligations.ThresholdTables := by
  refine ⟨by decide, by decide, fun s => ⟨fun hlt => ?_, fun heq => ?_, fun hlt => ?_, fun heq => ?_⟩⟩
  · rw [carry3_of_lt hlt]
  · exact carry3_xdiv_of_le (BitVec.le_of_eq heq.symm)
  · rw [carry4_of_lt hlt]
  · rw [carry4_of_le (BitVec.le_of_eq heq.symm)]

/-! ### The horizontal sync, an equation per kind of mode and value of the tested bit -/

theorem exec_hsRise (s : State) : exec .hsRise s = .next (syncCounter s) := rfl

theorem syncOdd_of_clear (h : s.counter.getLsbD 3 = false) :
    syncOdd s = { s with counter := s.counter &&& 0xFFF0#16 } := by
  rw [syncOdd, h]; rfl

theorem syncOdd_of_set (h : s.counter.getLsbD 3 = true) :
    syncOdd s = carry3 { s with counter := s.counter &&& 0xFFF0#16 } := by
  rw [syncOdd, h]; rfl

theorem syncEven_of_clear (h : s.counter.getLsbD 4 = false) :
    syncEven s = { s with counter := s.counter &&& 0xFFE0#16 } := by
  rw [syncEven, h]; rfl

theorem syncEven_of_set (h : s.counter.getLsbD 4 = true) :
    syncEven s = carry4 { s with counter := s.counter &&& 0xFFE0#16 } := by
  rw [syncEven, h]; rfl

theorem syncCounter_of_odd (hV : fieldV s.reg = 1#3 ∨ fieldV s.reg = 3#3 ∨ fieldV s.reg = 5#3) :
    syncCounter s = syncOdd s := by
  obtain h | h | h := hV <;> rw [syncCounter, h] <;> rfl

theorem syncCounter_of_even
    (hV : fieldV s.reg = 0#3 ∨ fieldV s.reg = 2#3 ∨ fieldV s.reg = 4#3 ∨ fieldV s.reg = 6#3) :
    syncCounter s = syncEven s := by
  obtain h | h | h | h := hV <;> rw [syncCounter, h] <;> rfl

theorem syncCounter_of_mode7 (hV : fieldV s.reg = 7#3) : syncCounter s = s := by
  rw [syncCounter, hV]; rfl

/-- Settles O44: the mode picks the sync, and the tested bit whether the sync enters its carry stage. -/
theorem horizontalSyncByMode : Obligations.HorizontalSyncByMode := by
  intro s
  rw [exec_hsRise]
  refine ⟨fun hV h3 => ?_, fun hV h3 => ?_, fun hV h4 => ?_, fun hV h4 => ?_, fun hV => ?_⟩
  · rw [syncCounter_of_odd hV, syncOdd_of_clear h3]
  · rw [syncCounter_of_odd hV, syncOdd_of_set h3]
  · rw [syncCounter_of_even hV, syncEven_of_clear h4]
  · rw [syncCounter_of_even hV, syncEven_of_set h4]
  · rw [syncCounter_of_mode7 hV]

end Sys2Proof.Machine
end

section
/-! The statements about what can fault (60_exceptions.md R225, R226). -/

namespace Sys2Proof.Machine

/-- The five capacities of R226 are the sizes of the capacities the chip knows. -/
theorem exists_bytes_of_mem {n : Nat} (h : n ∈ [4096, 8192, 16384, 32768, 65536]) : ∃ cap : RamCap, n = cap.bytes := by
  simp only [List.mem_cons, List.not_mem_nil, or_false] at h
  obtain rfl | rfl | rfl | rfl | rfl := h
  exacts [⟨.k4, rfl⟩, ⟨.k8, rfl⟩, ⟨.k16, rfl⟩, ⟨.k32, rfl⟩, ⟨.k64, rfl⟩]

theorem exec_attach (n : Nat) (b : Rat) (d : Nat) (h : HostBinding) (s : State) :
    exec (.attach n b d h) s = execAttach n b d h s := rfl

/-- With a legal capacity ATTACH answers the fresh instance or is refused on its preconditions (U6). -/
theorem execAttach_legal (cap : RamCap) (b : Rat) (d : Nat) (h : HostBinding) (s : State) :
    execAttach cap.bytes b d h s = if 0 < d ∧ 0 < b then
      .next (resetChip ((s.setParams cap b d (bindHost cap h)).setEndc false)) else .refused .attachPrecondition := by
  rw [execAttach, legalCapacity_bytes]

theorem execAttach_legal_ne_fault (cap : RamCap) (b : Rat) (d : Nat) (h : HostBinding) (s : State) (f : Fault) :
    execAttach cap.bytes b d h s ≠ .fault f := by
  rw [execAttach_legal]
  split <;> nofun

/-- Every operation but ATTACH answers a next state in every state (R225: no bus access, control write, address
request or signal raises an error). -/
theorem exec_next_or_attach (i : Instr) (s : State) :
    (∃ t, exec i s = .next t) ∨ ∃ n b d h, i = .attach n b d h := by
  obtain ⟨o, rfl⟩ | ⟨o, rfl⟩ | ⟨a, rfl⟩ | ⟨a, d, rfl⟩ | rfl | rfl | rfl | ⟨d, rfl⟩ | rfl | rfl |
    ⟨n, b, d, h, rfl⟩ | rfl := instr_cases i
  · exact .inl ⟨_, (exec_controlInstr o s).trans (controlWrite_eq o s)⟩
  · exact .inl ⟨_, exec_ctrlRd o s⟩
  · exact .inl ((execBusRd_frame a s).imp fun _ ht => ht.1)
  · exact .inl ((execBusWr_cases a d s).imp fun _ ht => ht.1)
  · exact .inl ⟨setEndcLine true s, rfl⟩
  · exact .inl ⟨setEndcLine false s, rfl⟩
  · exact .inl ⟨_, rfl⟩
  · exact .inl ⟨_, rfl⟩
  · exact .inl ⟨_, exec_hsRise s⟩
  · exact .inl ⟨s, rfl⟩
  · exact .inr ⟨n, b, d, h, rfl⟩
  · exact .inl ⟨resetChip s, rfl⟩

/-- Settles O51: the capacity is checked first (R231), and the check finds none of the five. -/
theorem attachIllegalCapacityFaults : Obligations.AttachIllegalCapacityFaults := by
  intro n b d h s hn
  rw [exec_attach, execAttach, legalCapacity_none hn]
  rfl

/-- Settles O52: what is no ATTACH completes, an ATTACH with one of the five capacities does not fault, and with any
other its fault is the one of O51. -/
theorem onlyAttachCanFault : Obligations.OnlyAttachCanFault := by
  intro i s f hf
  obtain ⟨t, ht⟩ | ⟨n, b, d, h, rfl⟩ := exec_next_or_attach i s
  · cases ht.symm.trans hf
  · by_cases hn : n ∈ [4096, 8192, 16384, 32768, 65536]
    · obtain ⟨cap, rfl⟩ := exists_bytes_of_mem hn
      exact absurd hf (execAttach_legal_ne_fault cap b d h s f)
    · cases (attachIllegalCapacityFaults n b d h s hn).symm.trans hf
      exact ⟨n, b, d, h, rfl, hn, rfl⟩

end Sys2Proof.Machine
end

section
/-! The statements about the encoding (30_encoding.md): decode and encode agree, and the control range splits the bus
accesses. -/

namespace Sys2Proof

/-! ### The decoder, an equation per format and class of argument -/

theorem decode_busWrite_control {a : Word} (h : inControlRange a = true) (d : Byte) :
    decode (.busWrite a d) = .ok (controlInstr (a.extractLsb' 0 5)) := by
  rw [decode, if_pos h]

theorem decode_busWrite_ordinary {a : Word} (h : inControlRange a = false) (d : Byte) :
    decode (.busWrite a d) = .ok (.busWr a d) := by
  rw [decode, h]; rfl

theorem decode_busRead_control {a : Word} (h : inControlRange a = true) :
    decode (.busRead a) = .ok (.ctrlRd (a.extractLsb' 0 5)) := by
  rw [decode, if_pos h]

theorem decode_busRead_ordinary {a : Word} (h : inControlRange a = false) : decode (.busRead a) = .ok (.busRd a) := by
  rw [decode, h]; rfl

theorem decode_addressRequest_restart : decode (.addressRequest restartOffset) = .ok .vreqRestart := by
  rw [decode, if_pos rfl]

theorem decode_addressRequest_ordinary {offset : RequestOffset} (h : offset ≠ restartOffset) :
    decode (.addressRequest offset) = .ok (.vreq (offset.extractLsb' 0 1)) := by
  rw [decode, if_neg h]

theorem bit_cases (b : BitVec 1) : b = 0#1 ∨ b = 1#1 := by revert b; decide

/-! ### Encoding and decoding are inverse -/

/-- Settles O1: by shape of the operation. A bus access decodes to itself because its address is outside the control
range, which is what well-formedness says; an offset of `VREQ` is not the sentinel. -/
theorem decodeOfEncodeIsTheOperation : Obligations.DecodeOfEncodeIsTheOperation := by
  intro i hwf
  obtain ⟨o, rfl⟩ | ⟨o, rfl⟩ | ⟨a, rfl⟩ | ⟨a, d, rfl⟩ | rfl | rfl | rfl | ⟨d, rfl⟩ | rfl | rfl |
    ⟨c, b, d, host, rfl⟩ | rfl := instr_cases i
  · rw [encode_controlInstr, decode_encodeControl]
  · rw [encode, decode_busRead_control (inControlRange_controlAddress o), extractLsb_controlAddress]
  · exact decode_busRead_ordinary (by simpa [Instr.wf] using hwf)
  · exact decode_busWrite_ordinary (by simpa [Instr.wf] using hwf) d
  · rfl
  · rfl
  · exact decode_addressRequest_restart
  · obtain ⟨hoffset, hbit⟩ := vreq_offset d
    rw [encode, decode_addressRequest_ordinary hoffset, hbit]
  · rfl
  · rfl
  · rfl
  · rfl

/-- Settles O2: by format of the call. In the control range the address is the one of its own offset and the datum is
ignored; outside it, and in every other format, only the offset of `VREQ` loses bits. -/
theorem encodeOfDecodeClearsIgnoredBits : Obligations.EncodeOfDecodeClearsIgnoredBits := by
  intro r i h
  cases r with
  | busWrite a d =>
    cases ha : inControlRange a with
    | true =>
      cases (decode_busWrite_control ha d).symm.trans h
      rw [encode_controlInstr, encodeControl, controlAddress_extractLsb ha, Request.canonical, if_pos ha]
    | false =>
      cases (decode_busWrite_ordinary ha d).symm.trans h
      rw [Request.canonical, ha]; rfl
  | busRead a =>
    cases ha : inControlRange a with
    | true =>
      cases (decode_busRead_control ha).symm.trans h
      rw [encode, controlAddress_extractLsb ha]; rfl
    | false => cases (decode_busRead_ordinary ha).symm.trans h; rfl
  | addressRequest offset =>
    by_cases hoffset : offset = restartOffset
    · subst hoffset
      cases decode_addressRequest_restart.symm.trans h
      rw [Request.canonical, if_pos rfl]; rfl
    · cases (decode_addressRequest_ordinary hoffset).symm.trans h
      rw [Request.canonical, if_neg hoffset]; rfl
  | horizontalSync level => obtain rfl | rfl := bit_cases level <;> (cases h; rfl)
  | externalDisable state => obtain rfl | rfl := bit_cases state <;> (cases h; rfl)
  | attach c b d host => cases h; rfl
  | reset => cases h; rfl
  | restore p => cases h

/-- Settles O3: by format of the call; an address outside the control range makes a well-formed bus access. -/
theorem everyCallButRestoreDecodes : Obligations.EveryCallButRestoreDecodes := by
  intro r
  cases r with
  | restore p => exact .inl ⟨p, rfl, rfl⟩
  | busWrite a d =>
    refine .inr ⟨nofun, ?_⟩
    cases ha : inControlRange a with
    | true => exact ⟨_, decode_busWrite_control ha d, controlInstr_wf _⟩
    | false => exact ⟨_, decode_busWrite_ordinary ha d, by simp [Instr.wf, ha]⟩
  | busRead a =>
    refine .inr ⟨nofun, ?_⟩
    cases ha : inControlRange a with
    | true => exact ⟨_, decode_busRead_control ha, rfl⟩
    | false => exact ⟨_, decode_busRead_ordinary ha, by simp [Instr.wf, ha]⟩
  | addressRequest offset =>
    refine .inr ⟨nofun, ?_⟩
    by_cases hoffset : offset = restartOffset
    · exact ⟨_, hoffset ▸ decode_addressRequest_restart, rfl⟩
    · exact ⟨_, decode_addressRequest_ordinary hoffset, rfl⟩
  | horizontalSync level => obtain rfl | rfl := bit_cases level <;> exact .inr ⟨nofun, _, rfl, rfl⟩
  | externalDisable state => obtain rfl | rfl := bit_cases state <;> exact .inr ⟨nofun, _, rfl, rfl⟩
  | attach c b d host => exact .inr ⟨nofun, _, rfl, rfl⟩
  | reset => exact .inr ⟨nofun, _, rfl, rfl⟩

/-! ### The control range -/

/-- In the control range the low five bits of the address are its distance from the base. -/
theorem extractLsb_eq_offset {a : Word} (h : 0xFFC0 ≤ a.toNat ∧ a.toNat ≤ 0xFFDF) :
    a.extractLsb' 0 5 = BitVec.ofNat 5 (a.toNat - 0xFFC0) := by
  apply BitVec.eq_of_toNat_eq
  simp only [BitVec.extractLsb'_toNat, BitVec.toNat_ofNat, Nat.shiftRight_zero]
  omega

/-- Settles O6: the control range is 0xFFC0 to 0xFFDF as numbers. -/
theorem busAccessesAreClassifiedByAddress : Obligations.BusAccessesAreClassifiedByAddress := by
  intro a d
  refine ⟨fun hin => ?_, fun hout => ?_⟩
  · have ha : inControlRange a = true := (inControlRange_iff a).2 hin
    rw [← extractLsb_eq_offset hin]
    exact ⟨decode_busWrite_control ha d, decode_busRead_control ha⟩
  · have ha : inControlRange a = false := by
      rw [Bool.eq_false_iff, Ne, inControlRange_iff]
      omega
    exact ⟨decode_busWrite_ordinary ha d, decode_busRead_ordinary ha⟩

/-- Settles O4: each of the 32 addresses is in the control range, and its low five bits are the row of the opcode
map. -/
theorem controlAddressTable : Obligations.ControlAddressTable := by
  intro d
  and_intros <;> exact decode_busWrite_control (by decide) d

/-- Settles O5: each word is decoded by the equation of its format. -/
theorem sampleWordsDecode : Obligations.SampleWordsDecode := by
  and_intros
  · exact decode_busWrite_control (by decide) _
  · exact decode_busRead_control (by decide)
  · exact decode_busRead_ordinary (by decide)
  · exact decode_busWrite_ordinary (by decide) _
  · exact decode_addressRequest_restart
  · exact decode_addressRequest_ordinary (by decide)
  · rfl
  · rfl
  · rfl
  · rfl

end Sys2Proof
end

section
/-! The statements over all operations: what each of them leaves unchanged (10_state.md sections 7 and 10,
20_memory.md section 1), and that each of them completes. -/

namespace Sys2Proof.Machine

variable {i : Instr} {s t : State}

theorem restartCounter_eq (s : State) :
    restartCounter s = { s with counter := displayOffset s.reg, xdiv := 0#4, ydiv := 0#4 } := rfl

/-- `VREQ.RESTART` changes the counter, the sub-dividers, the outputs and the draw count at most. -/
theorem exec_vreqRestart_frame (h : exec .vreqRestart s = .next t) :
    t = { s with
      counter := t.counter, xdiv := t.xdiv, ydiv := t.ydiv, outputs := t.outputs, draws := t.draws } := by
  rw [exec_vreqRestart_inv h, restartCounter_eq]

/-- `VREQ d` changes the counter, the sub-dividers, the outputs and the draw count at most. -/
theorem exec_vreq_frame {d : BitVec 1} (h : exec (.vreq d) s = .next t) :
    t = { s with
      counter := t.counter, xdiv := t.xdiv, ydiv := t.ydiv, outputs := t.outputs, draws := t.draws } := by
  rw [exec_vreq_inv h, stepCounter_frame]

/-- What is no BUS.WR and no ATTACH leaves the parameters, the host's bytes, the wiring and the queue: it changes the
five elements, the outputs and the draw count at most. -/
theorem exec_frame (hwr : ∀ a d, i ≠ .busWr a d) (hattach : ∀ c b d h, i ≠ .attach c b d h)
    (h : exec i s = .next t) :
    t = { s with
      reg := t.reg, endc := t.endc, counter := t.counter, xdiv := t.xdiv, ydiv := t.ydiv
      outputs := t.outputs, draws := t.draws } := by
  obtain ⟨o, rfl⟩ | ⟨o, rfl⟩ | ⟨a, rfl⟩ | ⟨a, d, rfl⟩ | rfl | rfl | rfl | ⟨d, rfl⟩ | rfl | rfl |
    ⟨c, b, d, host, rfl⟩ | rfl := instr_cases i
  · rw [exec_controlInstr_inv h]
  · rw [exec_ctrlRd_inv h]
  · rw [exec_busRd_inv h]
  · exact absurd rfl (hwr a d)
  · rw [exec_endcSet_inv h, setEndcLine_eq]
  · rw [exec_endcClr_inv h, setEndcLine_eq]
  · rw [exec_vreqRestart_frame h]
  · rw [exec_vreq_frame h]
  · rw [exec_hsRise_inv h, syncCounter_frame]
  · rw [exec_hsFall_inv h]
  · exact absurd rfl (hattach c b d host)
  · rw [exec_reset_inv h, resetChip_eq]

/-- BUS.WR changes the RAM and the outputs at most. -/
theorem exec_busWr_frame {a : Word} {d : Byte} (h : exec (.busWr a d) s = .next t) :
    t = { s with host := { s.host with ram := t.host.ram }, outputs := t.outputs } := by
  obtain ⟨off, -, ht⟩ | ⟨-, ht⟩ := exec_busWr_inv h
  · rw [ht]
  · rw [ht]

/-- What an ATTACH that completes answers: the reset state of R214, with the parameters it was given. -/
theorem exec_attach_eq {n : Nat} {b : Rat} {d : Nat} {host : HostBinding} (h : exec (.attach n b d host) s = .next t) :
    ∃ cap : RamCap, n = cap.bytes ∧ 0 < d ∧ 0 < b ∧ t = { s with
      reg := 0x0000#16, endc := false, counter := 0x0000#16, xdiv := 0#4, ydiv := 0#4
      ramCap := cap, baseClk := b, divider := d, host := bindHost cap host
      outputs := s.outputs ++ [.install (recompute 0x0000#16 cap false),
        .clockUpdate (effectiveClock b d false false)] } := by
  obtain ⟨cap, hn, hd, hb, rfl⟩ := exec_attach_inv h
  exact ⟨cap, hn, hd, hb, resetChip_eq _⟩

/-- Settles O29: what is neither of the two operations that reach the host's bytes has them in its frame. -/
theorem onlyBusWritesStore : Obligations.OnlyBusWritesStore := by
  intro i s t hwr hattach h
  rw [exec_frame hwr hattach h]

/-- Settles O48: the wiring and the parameters are in the frame of every operation but ATTACH, which keeps the
wiring. -/
theorem parametersAreFixedAfterAttach : Obligations.ParametersAreFixedAfterAttach := by
  intro i s t h
  by_cases hwr : ∃ a d, i = .busWr a d
  · obtain ⟨a, d, rfl⟩ := hwr
    rw [exec_busWr_frame h]
    exact ⟨rfl, fun _ => ⟨rfl, rfl, rfl⟩⟩
  by_cases hattach : ∃ c b d host, i = .attach c b d host
  · obtain ⟨c, b, d, host, rfl⟩ := hattach
    obtain ⟨cap, -, -, -, rfl⟩ := exec_attach_eq h
    exact ⟨rfl, fun hne => absurd rfl (hne c b d host)⟩
  push Not at hwr hattach
  rw [exec_frame hwr hattach h]
  exact ⟨rfl, fun _ => ⟨rfl, rfl, rfl⟩⟩

/-- Settles O47: by shape, an operation left by the hypotheses has the register, or the flag, in its frame. -/
theorem whoWritesTheRegisterAndTheFlag : Obligations.WhoWritesTheRegisterAndTheFlag := by
  intro i s t h
  obtain ⟨o, rfl⟩ | ⟨o, rfl⟩ | ⟨a, rfl⟩ | ⟨a, d, rfl⟩ | rfl | rfl | rfl | ⟨d, rfl⟩ | rfl | rfl |
    ⟨c, b, d, host, rfl⟩ | rfl := instr_cases i
  · rw [exec_controlInstr_inv h]; exact ⟨fun hne => absurd rfl (hne o), fun _ _ _ => rfl⟩
  · rw [exec_ctrlRd_inv h]; exact ⟨fun _ _ _ => rfl, fun _ _ _ => rfl⟩
  · rw [exec_busRd_inv h]; exact ⟨fun _ _ _ => rfl, fun _ _ _ => rfl⟩
  · rw [exec_busWr_frame h]; exact ⟨fun _ _ _ => rfl, fun _ _ _ => rfl⟩
  · rw [exec_endcSet_inv h, setEndcLine_eq]; exact ⟨fun _ _ _ => rfl, fun hne => absurd rfl hne⟩
  · rw [exec_endcClr_inv h, setEndcLine_eq]; exact ⟨fun _ _ _ => rfl, fun _ hne => absurd rfl hne⟩
  · rw [exec_vreqRestart_frame h]; exact ⟨fun _ _ _ => rfl, fun _ _ _ => rfl⟩
  · rw [exec_vreq_frame h]; exact ⟨fun _ _ _ => rfl, fun _ _ _ => rfl⟩
  · rw [exec_hsRise_inv h, syncCounter_frame]; exact ⟨fun _ _ _ => rfl, fun _ _ _ => rfl⟩
  · rw [exec_hsFall_inv h]; exact ⟨fun _ _ _ => rfl, fun _ _ _ => rfl⟩
  · exact ⟨fun _ _ hne => absurd rfl (hne c b d host), fun _ _ hne => absurd rfl (hne c b d host)⟩
  · rw [exec_reset_inv h, resetChip_eq]; exact ⟨fun _ hne => absurd rfl hne, fun _ _ _ => rfl⟩

/-- Settles O53: an operation that is no ATTACH is one of those that complete. -/
theorem everyOperationButAttachCompletes : Obligations.EveryOperationButAttachCompletes := by
  intro i s hattach
  obtain hnext | ⟨c, b, d, host, rfl⟩ := exec_next_or_attach i s
  · exact hnext
  · exact absurd rfl (hattach c b d host)

end Sys2Proof.Machine
end

section
/-! The statements about reset and attach (44_host_binding.md section 2). -/

namespace Sys2Proof.Machine

theorem exec_reset (s : State) : exec .reset s = .next (resetChip s) := rfl

/-- The view of the cleared register: the 4K view with ROM and I/O, unless suppressed. -/
theorem recompute_zero (cap : RamCap) (endc : Bool) :
    recompute 0x0000#16 cap endc = if endc then .suppressed else .active .ram4K true true := by
  cases endc <;> rfl

/-- The clock with R0 = 0. -/
theorem effectiveClock_slow (base : Rat) (divider : Nat) (r1 : Bool) :
    effectiveClock base divider r1 false = { base := base, divisor := divider * 4 } := rfl

/-- Settles O49: the two announcements are the view and the clock of the cleared register. -/
theorem resetGivesTheResetState : Obligations.ResetGivesTheResetState := by
  intro s
  rw [exec_reset, resetChip_eq, recompute_zero, effectiveClock_slow]

/-- Settles O50: the capacity is legal, so the two preconditions decide; a canonical binding in its regions is kept by
the reading of its cells. -/
theorem attachGivesAFreshInstance : Obligations.AttachGivesAFreshInstance := by
  intro cap b d h s
  rw [exec_attach, execAttach_legal]
  refine ⟨fun hd hb => ?_, fun hbad => ?_, fun hram hramBelow hrom hromBelow => ?_⟩
  · rw [if_pos ⟨hd, hb⟩, resetChip_eq]; rfl
  · rw [if_neg]
    rintro ⟨hd, hb⟩
    exact hbad.elim hd.ne' hb.not_ge
  · rw [bindHost, Memory.ofCells_of_wf hram hramBelow, Memory.ofCells_of_wf hrom hromBelow]

end Sys2Proof.Machine
end

section
/-! The statements about one step: what it carries out, and the three invariants it keeps. -/

namespace Sys2Proof.Machine

variable {i : Instr} {s t : State}

/-! ### The step -/

theorem step_idle (hp : s.pending = []) : step s = .next s := by rw [step, hp]

theorem step_pending {r : Request} {rs : List Request} (hp : s.pending = r :: rs) :
    step s = deliver r (s.setPending rs) := by rw [step, hp]

theorem deliver_restore (p : Persisted) (s : State) : deliver (.restore p) s = .next (restore p s) := rfl

theorem deliver_of_decode {r : Request} (h : decode r = .ok i) (s : State) : deliver r s = exec i s := by
  unfold deliver
  split
  · cases h
  · rw [h]

/-- Settles O7: the call is taken off the queue and delivered through the decoder. -/
theorem stepRunsTheDecodedOperation : Obligations.StepRunsTheDecodedOperation := by
  intro s r rs i hp hi
  rw [step_pending hp, deliver_of_decode hi]
  rfl

/-- Settles O8: there is nothing to deliver. -/
theorem stepWithNothingPendingDoesNothing : Obligations.StepWithNothingPendingDoesNothing :=
  fun _ hp => step_idle hp

/-- The low nibble of a byte is the byte modulo 16. -/
theorem lowNibble_eq (b : Byte) : b.setWidth 4 = BitVec.ofNat 4 (b.toNat % 16) := by
  apply BitVec.eq_of_toNat_eq
  rw [BitVec.toNat_setWidth, BitVec.toNat_ofNat, Nat.mod_mod]

/-- Settles O9: a restore is delivered without the decoder. -/
theorem stepRestoresThePersistedState : Obligations.StepRestoresThePersistedState := by
  intro s p rs hp
  rw [step_pending hp, deliver_restore, restore_eq, lowNibble_eq, lowNibble_eq]
  rfl

/-! ### The legal states -/

theorem exec_keeps_legal (hs : Legal s) (h : exec i s = .next t) : Legal t := by
  by_cases hwr : ∃ a d, i = .busWr a d
  · obtain ⟨a, d, rfl⟩ := hwr
    obtain ⟨off, hoff, rfl⟩ | ⟨-, ht⟩ := exec_busWr_inv h
    · exact { hs with
        ram_wf := Memory.write_wf off d hs.ram_wf
        ram_below := Memory.write_below d (busDecode_ram_below hoff) hs.ram_below }
    · rw [ht]; exact hs.congr rfl rfl rfl rfl rfl
  by_cases hattach : ∃ c b d host, i = .attach c b d host
  · obtain ⟨c, b, d, host, rfl⟩ := hattach
    obtain ⟨cap, -, hd, hb, rfl⟩ := exec_attach_eq h
    exact { hs with
      divider_pos := hd
      baseClk_pos := hb
      ram_wf := Memory.ofCells_wf _ _
      ram_below := Memory.ofCells_below _ _
      rom_wf := Memory.ofCells_wf _ _
      rom_below := Memory.ofCells_below _ _ }
  push Not at hwr hattach
  rw [exec_frame hwr hattach h]
  exact hs.congr rfl rfl rfl rfl rfl

/-- Settles O56: a restore has the legal state's parts in its frame, and so has every operation but BUS.WR, which
writes inside the RAM, and ATTACH, which checks its parameters and installs canonical memories. -/
theorem stepKeepsTheStateLegal : Obligations.StepKeepsTheStateLegal := by
  intro s t hs h
  obtain ⟨-, rfl⟩ | ⟨p, rs, -, rfl⟩ | ⟨r, rs, i, -, -, -, hi⟩ := step_cases h
  · exact hs
  · rw [restore_eq]; exact hs.congr rfl rfl rfl rfl rfl
  · have hs' : Legal (s.setPending rs) := hs.congr rfl rfl rfl rfl rfl
    exact exec_keeps_legal hs' hi

/-! ### The ranges of the sub-dividers -/

theorem SubDividersInRange.congr (hs : SubDividersInRange s) (hx : t.xdiv = s.xdiv) (hy : t.ydiv = s.ydiv) :
    SubDividersInRange t := by
  rw [SubDividersInRange, hx, hy]; exact hs

theorem SubDividersInRange.zero (hx : t.xdiv = 0#4) (hy : t.ydiv = 0#4) : SubDividersInRange t := by
  rw [SubDividersInRange, hx, hy]; decide

theorem carry4_keeps_range (hs : SubDividersInRange s) : SubDividersInRange (carry4 s) := by
  obtain ⟨hx, hy⟩ := hs
  refine ⟨by rwa [carry4_xdiv], ?_⟩
  cases hr : reaches s.ydiv (yThreshold (fieldV s.reg)) with
  | true => rw [carry4, hr, if_pos rfl, State.setCounter_ydiv, State.setYdiv_ydiv]; decide
  | false => rw [carry4, hr]; exact succ_le_of_not_reaches hr (yThreshold_le _) (by decide)

theorem carry3_keeps_range (hs : SubDividersInRange s) : SubDividersInRange (carry3 s) := by
  obtain ⟨hx, hy⟩ := hs
  cases hr : reaches s.xdiv (xThreshold (fieldV s.reg)) with
  | true =>
    rw [carry3, hr, if_pos rfl]
    split
    · exact carry4_keeps_range ⟨by simp, hy⟩
    · exact ⟨by simp, hy⟩
  | false =>
    rw [carry3, hr]
    exact ⟨succ_le_of_not_reaches hr (xThreshold_le _) (by decide), hy⟩

theorem stepCounter_keeps_range (d : BitVec 1) (hs : SubDividersInRange s) : SubDividersInRange (stepCounter d s) := by
  unfold stepCounter
  split
  · exact hs
  · split
    · exact carry3_keeps_range (hs.congr rfl rfl)
    · exact hs.congr rfl rfl

theorem syncOdd_keeps_range (hs : SubDividersInRange s) : SubDividersInRange (syncOdd s) := by
  unfold syncOdd
  split
  · exact carry3_keeps_range (hs.congr rfl rfl)
  · exact hs.congr rfl rfl

theorem syncEven_keeps_range (hs : SubDividersInRange s) : SubDividersInRange (syncEven s) := by
  unfold syncEven
  split
  · exact carry4_keeps_range (hs.congr rfl rfl)
  · exact hs.congr rfl rfl

/-- The eight video modes by what a horizontal sync does in them (R186). -/
theorem mode_cases (v : BitVec 3) :
    (v = 1#3 ∨ v = 3#3 ∨ v = 5#3) ∨ (v = 0#3 ∨ v = 2#3 ∨ v = 4#3 ∨ v = 6#3) ∨ v = 7#3 := by
  revert v; decide

theorem syncCounter_keeps_range (hs : SubDividersInRange s) : SubDividersInRange (syncCounter s) := by
  obtain hV | hV | hV := mode_cases (fieldV s.reg)
  · rw [syncCounter_of_odd hV]; exact syncOdd_keeps_range hs
  · rw [syncCounter_of_even hV]; exact syncEven_keeps_range hs
  · rw [syncCounter_of_mode7 hV]; exact hs

theorem exec_keeps_range (hs : SubDividersInRange s) (h : exec i s = .next t) : SubDividersInRange t := by
  obtain ⟨o, rfl⟩ | ⟨o, rfl⟩ | ⟨a, rfl⟩ | ⟨a, d, rfl⟩ | rfl | rfl | rfl | ⟨d, rfl⟩ | rfl | rfl |
    ⟨c, b, d, host, rfl⟩ | rfl := instr_cases i
  · rw [exec_controlInstr_inv h]; exact hs.congr rfl rfl
  · rw [exec_ctrlRd_inv h]; exact hs.congr rfl rfl
  · rw [exec_busRd_inv h]; exact hs.congr rfl rfl
  · rw [exec_busWr_frame h]; exact hs.congr rfl rfl
  · rw [exec_endcSet_inv h, setEndcLine_eq]; exact hs.congr rfl rfl
  · rw [exec_endcClr_inv h, setEndcLine_eq]; exact hs.congr rfl rfl
  · rw [exec_vreqRestart_inv h, restartCounter_eq]; exact .zero rfl rfl
  · rw [exec_vreq_inv h]; exact (stepCounter_keeps_range d hs).congr rfl rfl
  · rw [exec_hsRise_inv h]; exact syncCounter_keeps_range hs
  · rw [exec_hsFall_inv h]; exact hs
  · obtain ⟨cap, -, -, -, rfl⟩ := exec_attach_eq h; exact .zero rfl rfl
  · rw [exec_reset_inv h, resetChip_eq]; exact .zero rfl rfl

/-- Settles O57: what is no restore is an operation or nothing. The carries keep the ranges because a sub-divider that
does not reach its threshold, at most 3 or 12, is at most one less, and one that does is zeroed. -/
theorem subDividersStayInRange : Obligations.SubDividersStayInRange := by
  intro s t hne hs h
  obtain ⟨-, rfl⟩ | ⟨p, rs, hp, -⟩ | ⟨r, rs, i, -, -, -, hi⟩ := step_cases h
  · exact hs
  · exact absurd hp (hne p rs)
  · have hs' : SubDividersInRange (s.setPending rs) := hs.congr rfl rfl
    exact exec_keeps_range hs' hi

/-! ### The announcements -/

/-- From `s` to `t` the chip gives out something that tells the host of every change of the view and of the clock:
either the outputs name the new one, or it is the old one. -/
def Announces (s t : State) : Prop :=
  ∃ os, t.outputs = s.outputs ++ os ∧ ((lastInstall os).or (some (view s)) = some (view t)) ∧
    ((lastClock os).or (some (clock s)) = some (clock t))

theorem AnnouncedCurrent.of_announces (hs : AnnouncedCurrent s) (h : Announces s t) : AnnouncedCurrent t := by
  obtain ⟨os, hos, hview, hclock⟩ := h
  obtain ⟨hinstall, hupdate⟩ := hs
  rw [AnnouncedCurrent, hos, lastInstall_append, lastClock_append, hinstall, hupdate]
  exact ⟨hview, hclock⟩

/-- An output that is neither Install nor ClockUpdate. -/
def Quiet (os : List Output) : Prop := lastInstall os = none ∧ lastClock os = none

theorem view_congr (hreg : t.reg = s.reg) (hcap : t.ramCap = s.ramCap) (hendc : t.endc = s.endc) : view t = view s := by
  rw [view, hreg, hcap, hendc, view]

/-- What leaves the register, the flag and the parameters alone may give out what is quiet. -/
theorem Announces.quiet {os : List Output} (hos : t.outputs = s.outputs ++ os) (hq : Quiet os)
    (hframe : t = { s with
      counter := t.counter, xdiv := t.xdiv, ydiv := t.ydiv, host := t.host, outputs := t.outputs, draws := t.draws }) :
    Announces s t := by
  obtain ⟨hinstall, hupdate⟩ := hq
  have hview : view t = view s := by rw [hframe]; exact view_congr rfl rfl rfl
  have hclock : clock t = clock s := by rw [hframe]; exact clock_congr rfl rfl rfl
  exact ⟨os, hos, by rw [hinstall, hview, Option.none_or], by rw [hupdate, hclock, Option.none_or]⟩

/-- What announces both may do anything. -/
theorem Announces.both (hos : t.outputs = s.outputs ++ [.install (view t), .clockUpdate (clock t)]) : Announces s t :=
  ⟨_, hos, rfl, rfl⟩

/-- Reset, ATTACH and restore end in `announce`, which gives out view and clock of the state it answers (R215, R216). -/
theorem announce_outputs (s : State) :
    (announce s).outputs = s.outputs ++ [.install (view (announce s)), .clockUpdate (clock (announce s))] :=
  List.append_assoc _ _ _

theorem Announces.refl (s : State) : Announces s s := .quiet (List.append_nil _).symm ⟨rfl, rfl⟩ rfl

theorem readSlot_outputs (slot : Fin 8) (off : Nat) (s : State) :
    (readSlot slot off s).2.outputs = s.outputs ++ [.slotRead slot off] := by rw [readSlot_frame]

theorem execBusRd_quiet {a : Word} (h : execBusRd a s = .next t) : ∃ os, t.outputs = s.outputs ++ os ∧ Quiet os := by
  unfold execBusRd at h
  split at h <;> cases h
  case h_4 => exact ⟨_, rfl, rfl, rfl⟩
  all_goals exact ⟨_, by rw [State.emit_outputs, readSlot_outputs, List.append_assoc], rfl, rfl⟩

theorem videoRead_quiet (h : answer (videoRead s) = .next t) : ∃ os, t.outputs = s.outputs ++ os ∧ Quiet os := by
  cases h
  cases he : s.endc with
  | true => exact ⟨_, by rw [videoRead_suppressed he]; rfl, rfl, rfl⟩
  | false =>
    exact ⟨_, by rw [videoRead_ram he, State.emit_outputs, readSlot_outputs, List.append_assoc], rfl, rfl⟩

theorem execBusWr_quiet {a : Word} {d : Byte} (h : execBusWr a d s = .next t) :
    ∃ os, t.outputs = s.outputs ++ os ∧ Quiet os := by
  have hslot : ∀ slot off, (writeSlot slot off d s).outputs = s.outputs ++ [.slotWrite slot off d] := by
    intro slot off; unfold writeSlot; split <;> rfl
  unfold execBusWr at h
  split at h <;> cases h
  case h_4 => exact ⟨[], by simp, rfl, rfl⟩
  all_goals exact ⟨_, hslot _ _, rfl, rfl⟩

/-! #### The reactions to a change mask announce what the mask touches -/

theorem lastInstall_reactions (m : Word) (s : State) :
    lastInstall (reactions m s) = if touches m viewBits then some (view s) else none := by
  unfold reactions
  split <;> split <;> rfl

theorem lastClock_reactions (m : Word) (s : State) :
    lastClock (reactions m s) = if touches m clockBits then some (clock s) else none := by
  unfold reactions
  split <;> split <;> rfl

theorem lastInstall_changeMask (m : Word) (os : List Output) : lastInstall (.changeMask m :: os) = lastInstall os := by
  cases h : lastInstall os <;> simp [lastInstall, h]

theorem lastClock_changeMask (m : Word) (os : List Output) : lastClock (.changeMask m :: os) = lastClock os := by
  cases h : lastClock os <;> simp [lastClock, h]

theorem view_of_not_touches {o : ControlOffset} (h : touches (changeMask o s.reg) viewBits = false) :
    view { s with reg := alterReg o s.reg } = view s := by
  rw [view, ← recompute_viewBits, alterReg_of_not_touches h, recompute_viewBits]; rfl

theorem clock_of_not_touches {o : ControlOffset} (h : touches (changeMask o s.reg) clockBits = false) :
    clock { s with reg := alterReg o s.reg } = clock s := by
  rw [clock, ← effectiveClock_clockBits, alterReg_of_not_touches h, effectiveClock_clockBits]; rfl

theorem controlWrite_announces {o : ControlOffset} (h : exec (controlInstr o) s = .next t) : Announces s t := by
  rw [exec_controlInstr_inv h]
  refine ⟨_, rfl, ?_, ?_⟩
  · rw [lastInstall_changeMask, lastInstall_reactions]
    cases htouch : touches (changeMask o s.reg) viewBits with
    | true => rfl
    | false => exact congrArg some (view_of_not_touches htouch).symm
  · rw [lastClock_changeMask, lastClock_reactions]
    cases htouch : touches (changeMask o s.reg) clockBits with
    | true => rfl
    | false => exact congrArg some (clock_of_not_touches htouch).symm

theorem setEndcLine_announces (v : Bool) (s : State) : Announces s (setEndcLine v s) := by
  by_cases hv : s.endc = v
  · rw [setEndcLine, if_pos hv]; exact .refl s
  · rw [setEndcLine_eq, if_neg hv]; exact ⟨_, rfl, rfl, rfl⟩

theorem exec_announces (h : exec i s = .next t) : Announces s t := by
  obtain ⟨o, rfl⟩ | ⟨o, rfl⟩ | ⟨a, rfl⟩ | ⟨a, d, rfl⟩ | rfl | rfl | rfl | ⟨d, rfl⟩ | rfl | rfl |
    ⟨c, b, d, host, rfl⟩ | rfl := instr_cases i
  · exact controlWrite_announces h
  · rw [exec_ctrlRd_inv h]; exact .quiet rfl ⟨rfl, rfl⟩ rfl
  · obtain ⟨os, hos, hq⟩ := execBusRd_quiet h
    exact .quiet hos hq (by rw [exec_busRd_inv h])
  · obtain ⟨os, hos, hq⟩ := execBusWr_quiet h
    exact .quiet hos hq (by rw [exec_busWr_frame h])
  · rw [exec_endcSet_inv h]; exact setEndcLine_announces true s
  · rw [exec_endcClr_inv h]; exact setEndcLine_announces false s
  · obtain ⟨os, hos, hq⟩ := videoRead_quiet h
    exact .quiet (by rw [hos, restartCounter_eq]) hq (by rw [exec_vreqRestart_frame h])
  · obtain ⟨os, hos, hq⟩ := videoRead_quiet h
    exact .quiet (by rw [hos, stepCounter_frame]) hq (by rw [exec_vreq_frame h])
  · rw [exec_hsRise_inv h, syncCounter_frame]; exact .quiet (List.append_nil _).symm ⟨rfl, rfl⟩ rfl
  · rw [exec_hsFall_inv h]; exact .refl s
  · obtain ⟨cap, -, -, -, rfl⟩ := exec_attach_inv h; exact .both (announce_outputs _)
  · rw [exec_reset_inv h]; exact .both (announce_outputs _)

/-- Settles O58: a restore announces both, and every operation announces what it changes: a control write whose mask
does not touch the view's bits, or the clock's, leaves the view, or the clock, as it was. -/
theorem announcementsStayCurrent : Obligations.AnnouncementsStayCurrent := by
  intro s t hs h
  obtain ⟨-, rfl⟩ | ⟨p, rs, -, rfl⟩ | ⟨r, rs, i, -, -, -, hi⟩ := step_cases h
  · exact hs
  · exact hs.of_announces (.both (announce_outputs _))
  · have hs' : AnnouncedCurrent (s.setPending rs) := hs
    exact hs'.of_announces (exec_announces hi)

/-- Settles O55: the parameters, the empty memories, the wiring and the two announcements are all written out in
`State.reset`. -/
theorem resetMeetsTheInvariants : Obligations.ResetMeetsTheInvariants := by
  refine ⟨?_, .zero rfl rfl, rfl, rfl⟩
  constructor <;> decide

end Sys2Proof.Machine
end

section
/-! The statements about the 32 control writes (40_control_write.md sections 1, 2 and 4) and the pseudo-operations made
of them (30_encoding.md section 5). -/

namespace Sys2Proof.Machine

/-! ### One write -/

/-- A control write answers the register altered, the change mask and the reactions to it. -/
theorem exec_controlInstr_eq (o : ControlOffset) (s : State) :
    exec (controlInstr o) s = .next { s with
      reg := alterReg o s.reg
      outputs := s.outputs ++
        .changeMask (changeMask o s.reg) :: reactions (changeMask o s.reg) { s with reg := alterReg o s.reg } } :=
  (exec_controlInstr o s).trans (controlWrite_eq o s)

/-- Settles O11: the mask by the targeted bit, the other bits by the altered register. -/
theorem changeMaskIsTheTargetedBitOrZero : Obligations.ChangeMaskIsTheTargetedBitOrZero := by
  intro o s
  refine ⟨_, changeMask o s.reg, _, exec_controlInstr_eq o s, rfl, ?_, fun hzero => ?_, fun k hk => ?_⟩
  · rw [changeMask_eq, bitMask_eq]
  · rw [hzero, reactions_zero]
  · rw [getLsbD_alterReg, if_neg hk]

/-- A write of the register it has already altered changes no bit. -/
theorem changeMask_alterReg (o : ControlOffset) (r : Word) : changeMask o (alterReg o r) = 0#16 := by
  rw [← alterReg_eq_self_iff, alterReg_idem]

/-- Settles O20: the second write finds the bit as it would leave it, so its mask is 0 and nothing reacts. -/
theorem controlWriteIsIdempotent : Obligations.ControlWriteIsIdempotent := by
  intro o s
  refine ⟨_, exec_controlInstr_eq o s, ?_⟩
  rw [exec_controlInstr_eq, changeMask_alterReg, reactions_zero, alterReg_idem]

/-! ### The writes by field: which reaction their bit is relevant to (R134) -/

theorem reactions_of_none {m : Word} (hv : touches m viewBits = false) (hc : touches m clockBits = false) (s : State) :
    reactions m s = [] := by
  rw [reactions, hv, hc]; rfl

theorem reactions_of_view {m : Word} (hv : touches m viewBits = true) (hc : touches m clockBits = false) (s : State) :
    reactions m s = [.install (view s)] := by
  rw [reactions, hv, hc]; rfl

theorem reactions_of_clock {m : Word} (hv : touches m viewBits = false) (hc : touches m clockBits = true) (s : State) :
    reactions m s = [.clockUpdate (clock s)] := by
  rw [reactions, hv, hc]; rfl

theorem writesBit_silent (o : ControlOffset) (hv : touches (bitMask o) viewBits = false)
    (hc : touches (bitMask o) clockBits = false) :
    WritesBit (controlInstr o) (bitMask o) (o.getLsbD 0) fun _ => [] :=
  writesBit_of o rfl rfl rfl (reactions_of_none hv hc)

theorem writesBit_view (o : ControlOffset) (hv : touches (bitMask o) viewBits = true)
    (hc : touches (bitMask o) clockBits = false) :
    WritesBit (controlInstr o) (bitMask o) (o.getLsbD 0) fun t => [.install (view t)] :=
  writesBit_of o rfl rfl rfl (reactions_of_view hv hc)

theorem writesBit_clock (o : ControlOffset) (hv : touches (bitMask o) viewBits = false)
    (hc : touches (bitMask o) clockBits = true) :
    WritesBit (controlInstr o) (bitMask o) (o.getLsbD 0) fun t => [.clockUpdate (clock t)] :=
  writesBit_of o rfl rfl rfl (reactions_of_clock hv hc)

/-- Settles O12: the bits of V are relevant to no reaction. -/
theorem videoModeWrites : Obligations.VideoModeWrites :=
  ⟨writesBit_silent 0#5 rfl rfl, writesBit_silent 1#5 rfl rfl, writesBit_silent 2#5 rfl rfl,
    writesBit_silent 3#5 rfl rfl, writesBit_silent 4#5 rfl rfl, writesBit_silent 5#5 rfl rfl⟩

/-- Settles O13: the bits of F are relevant to no reaction. -/
theorem displayOffsetWrites : Obligations.DisplayOffsetWrites :=
  ⟨writesBit_silent 6#5 rfl rfl, writesBit_silent 7#5 rfl rfl, writesBit_silent 8#5 rfl rfl,
    writesBit_silent 9#5 rfl rfl, writesBit_silent 10#5 rfl rfl, writesBit_silent 11#5 rfl rfl,
    writesBit_silent 12#5 rfl rfl, writesBit_silent 13#5 rfl rfl, writesBit_silent 14#5 rfl rfl,
    writesBit_silent 15#5 rfl rfl, writesBit_silent 16#5 rfl rfl, writesBit_silent 17#5 rfl rfl,
    writesBit_silent 18#5 rfl rfl, writesBit_silent 19#5 rfl rfl⟩

/-- Settles O14: the bits of P1, TY and M are relevant to the view alone. -/
theorem viewWrites : Obligations.ViewWrites :=
  ⟨writesBit_view 20#5 rfl rfl, writesBit_view 21#5 rfl rfl, writesBit_view 30#5 rfl rfl, writesBit_view 31#5 rfl rfl,
    writesBit_view 26#5 rfl rfl, writesBit_view 27#5 rfl rfl, writesBit_view 28#5 rfl rfl, writesBit_view 29#5 rfl rfl⟩

/-- Settles O15: the bits of R0 and R1 are relevant to the clock alone. -/
theorem rateWrites : Obligations.RateWrites :=
  ⟨writesBit_clock 22#5 rfl rfl, writesBit_clock 23#5 rfl rfl, writesBit_clock 24#5 rfl rfl,
    writesBit_clock 25#5 rfl rfl⟩

/-! ### Two writes -/

/-- Each bit of the register after bit `b` was given the value `v`. -/
theorem getLsbD_alterReg_writeBit (b : BitVec 4) (v : Bool) (r : Word) (k : Nat) :
    (alterReg (b ++ BitVec.ofBool v) r).getLsbD k = if k = b.toNat then v else r.getLsbD k := by
  rw [getLsbD_alterReg, writeBit_toNat, writeBit_sense]

theorem changeMask_writeBit (b : BitVec 4) (v : Bool) (r : Word) :
    changeMask (b ++ BitVec.ofBool v) r = if r.getLsbD b.toNat = v then 0#16 else 1#16 <<< b.toNat := by
  rw [changeMask_eq, bitMask_eq, writeBit_toNat, writeBit_sense]

theorem one_shiftLeft_ne_zero (b : BitVec 4) : 1#16 <<< b.toNat ≠ 0#16 := by revert b; decide

/-- Of two writes of a bit with opposite values the second always changes it, so the masks agree exactly when the first
changed it too, which is when the bit held the second value before. -/
theorem changeMask_writeBit_not_iff (b : BitVec 4) (v : Bool) (r : Word) :
    changeMask (b ++ BitVec.ofBool v) r = changeMask (b ++ BitVec.ofBool !v) (alterReg (b ++ BitVec.ofBool v) r) ↔
      r.getLsbD b.toNat = !v := by
  have hne := one_shiftLeft_ne_zero b
  have hsecond : ¬ (v = !v) := by simp
  rw [changeMask_writeBit, changeMask_writeBit, getLsbD_alterReg_writeBit, if_pos rfl, if_neg hsecond]
  by_cases h : r.getLsbD b.toNat = v
  · simp [h, hne.symm]
  · simpa [h] using Bool.eq_not_of_ne h

/-- The second of two writes of a bit restores the register when the bit held its value before. -/
theorem alterReg_writeBit_not {b : BitVec 4} {v : Bool} {r : Word} (h : r.getLsbD b.toNat = !v) :
    alterReg (b ++ BitVec.ofBool !v) (alterReg (b ++ BitVec.ofBool v) r) = r := by
  apply BitVec.eq_of_getLsbD_eq
  intro k _
  rw [getLsbD_alterReg_writeBit, getLsbD_alterReg_writeBit]
  by_cases hk : k = b.toNat
  · rw [if_pos hk, hk, h]
  · rw [if_neg hk, if_neg hk]

/-- Settles O16: both writes complete; the bit, the masks and the register are those of `alterReg` done twice. -/
theorem setAndClearOfOneBit : Obligations.SetAndClearOfOneBit := by
  intro b v s
  obtain ⟨more₁, h₁⟩ := exec_writeBit b v s
  obtain ⟨more₂, h₂⟩ := exec_writeBit b (!v) { s with
    reg := alterReg (b ++ BitVec.ofBool v) s.reg
    outputs := s.outputs ++ .changeMask (changeMask (b ++ BitVec.ofBool v) s.reg) :: more₁ }
  refine ⟨_, _, _, _, more₁, more₂, h₁, h₂, rfl, rfl, ?_, changeMask_writeBit_not_iff b v s.reg,
    alterReg_writeBit_not⟩
  rw [getLsbD_alterReg_writeBit, if_pos rfl]

theorem alterReg_comm {b₁ b₂ : BitVec 4} (h : b₁ ≠ b₂) (v₁ v₂ : Bool) (r : Word) :
    alterReg (b₂ ++ BitVec.ofBool v₂) (alterReg (b₁ ++ BitVec.ofBool v₁) r) =
      alterReg (b₁ ++ BitVec.ofBool v₁) (alterReg (b₂ ++ BitVec.ofBool v₂) r) := by
  have hne : b₁.toNat ≠ b₂.toNat := fun e => h (BitVec.eq_of_toNat_eq e)
  apply BitVec.eq_of_getLsbD_eq
  intro k _
  simp only [getLsbD_alterReg_writeBit]
  by_cases hk : k = b₁.toNat
  · rw [if_pos hk, if_neg (hk ▸ hne), if_pos hk]
  · rw [if_neg hk, if_neg hk]

/-- Settles O17: both sequences complete with the register of their writes, and the writes commute bit by bit. -/
theorem writesOfDifferentBitsCommute : Obligations.WritesOfDifferentBitsCommute := by
  intro b₁ b₂ v₁ v₂ s hne
  obtain ⟨t, ht, et⟩ := execAll_writeBits [(b₁, v₁), (b₂, v₂)] s
  obtain ⟨u, hu, eu⟩ := execAll_writeBits [(b₂, v₂), (b₁, v₁)] s
  refine ⟨t, u, ht, hu, ?_⟩
  rw [et, eu]
  exact alterReg_comm hne v₁ v₂ s.reg

/-! ### The loads -/

/-- The writes of `w` bits from bit `p` on, in ascending order, with the bits of `m`. -/
def fieldWrites (p : Nat) {w : Nat} (m : BitVec w) : List (BitVec 4 × Bool) :=
  (List.range w).map fun i => (BitVec.ofNat 4 (p + i), m.getLsbD i)

theorem loadReg_eq (v : Word) : loadReg v = (fieldWrites 0 v).map fun p => writeBit p.1 p.2 := rfl

theorem loadV_eq (m : BitVec 3) : loadV m = (fieldWrites 0 m).map fun p => writeBit p.1 p.2 := rfl

theorem loadF_eq (f : BitVec 7) : loadF f = (fieldWrites 3 f).map fun p => writeBit p.1 p.2 := rfl

theorem loadM_eq (m : BitVec 2) : loadM m = (fieldWrites 13 m).map fun p => writeBit p.1 p.2 := rfl

theorem mem_fieldWrites_bits {p w : Nat} (hw : p + w ≤ 16) (m : BitVec w) (k : Nat) :
    k ∈ (fieldWrites p m).map (fun q => q.1.toNat) ↔ p ≤ k ∧ k < p + w := by
  simp only [fieldWrites, List.map_map, List.mem_map, List.mem_range, Function.comp_apply, BitVec.toNat_ofNat]
  constructor
  · rintro ⟨i, hi, rfl⟩
    omega
  · rintro ⟨hle, hlt⟩
    exact ⟨k - p, by omega, by omega⟩

/-- Each bit of the register after the writes of a field. -/
theorem getLsbD_fieldWrites {p w : Nat} (hw : p + w ≤ 16) (m : BitVec w) (r : Word) (k : Nat) :
    (writeBits (fieldWrites p m) r).getLsbD k = if p ≤ k ∧ k < p + w then m.getLsbD (k - p) else r.getLsbD k := by
  have hvalue : ∀ q ∈ fieldWrites p m, q.2 = m.getLsbD (q.1.toNat - p) := by
    simp only [fieldWrites, List.mem_map, List.mem_range]
    rintro q ⟨i, hi, rfl⟩
    rw [BitVec.toNat_ofNat, show (p + i) % 2 ^ 4 - p = i by omega]
  rw [getLsbD_writeBits _ (fun k => m.getLsbD (k - p)) hvalue]
  simp only [mem_fieldWrites_bits hw]

/-- The writes of a field put its value in the place of the bits that the mask `keep` takes out. -/
theorem writeBits_fieldWrites {p w : Nat} (hw : p + w ≤ 16) (keep : Word)
    (hkeep : ∀ k, k < 16 → keep.getLsbD k = !decide (p ≤ k ∧ k < p + w)) (m : BitVec w) (r : Word) :
    writeBits (fieldWrites p m) r = r &&& keep ||| (m.setWidth 16 <<< p) := by
  apply BitVec.eq_of_getLsbD_eq
  intro k hk
  rw [getLsbD_fieldWrites hw, BitVec.getLsbD_or, BitVec.getLsbD_and, hkeep k hk, BitVec.getLsbD_shiftLeft,
    BitVec.getLsbD_setWidth]
  by_cases hin : p ≤ k ∧ k < p + w
  · have : ¬ k < p := by omega
    have : k - p < 16 := by omega
    simp [*]
  · by_cases hlow : k < p
    · simp [hin, hlow]
    · have : m.getLsbD (k - p) = false := BitVec.getLsbD_of_ge m _ (by omega)
      simp [*]

/-- Settles O18: the writes name every bit of the register. -/
theorem loadRegLoadsAnyValue : Obligations.LoadRegLoadsAnyValue := by
  intro v s
  have hreg : writeBits (fieldWrites 0 v) s.reg = v := by
    rw [writeBits_fieldWrites (by omega) 0x0000#16 (by decide)]
    simp
  have h := execAll_writeBits (fieldWrites 0 v) s
  rwa [hreg, ← loadReg_eq] at h

/-- Settles O19: three fields, the writes of each inside the mask's gap. -/
theorem loadFieldLoadsItsField : Obligations.LoadFieldLoadsItsField := by
  intro s
  refine ⟨fun m => ?_, fun f => ?_, fun m => ?_⟩
  · have h := execAll_writeBits (fieldWrites 0 m) s
    rwa [← loadV_eq, writeBits_fieldWrites (by omega) 0xFFF8#16 (by decide), BitVec.shiftLeft_zero] at h
  · have h := execAll_writeBits (fieldWrites 3 f) s
    rwa [← loadF_eq, writeBits_fieldWrites (by omega) 0xFC07#16 (by decide)] at h
  · have h := execAll_writeBits (fieldWrites 13 m) s
    rwa [← loadM_eq, writeBits_fieldWrites (by omega) 0x9FFF#16 (by decide)] at h

end Sys2Proof.Machine
end

section
/-! The statements about the clock's values (42_clock.md R170, R173). -/

namespace Sys2Proof.Machine

/-- Settles O35: the frequency is the exact quotient by the divisor of R0. -/
theorem effectiveClockFormula : Obligations.EffectiveClockFormula := by
  intro s
  rw [clock_eq]
  rfl

theorem hz_of_R0_clear {s : State} (h : fieldR0 s.reg = false) :
    (clock s).hz = s.baseClk / ((s.divider * 4 : Nat) : Rat) := by
  rw [effectiveClockFormula, h]; rfl

theorem hz_of_R0_set {s : State} (h : fieldR0 s.reg = true) :
    (clock s).hz = s.baseClk / ((s.divider * 2 : Nat) : Rat) := by
  rw [effectiveClockFormula, h]; rfl

theorem fieldR0_clear (r : Word) : fieldR0 (alterReg 22#5 r) = false := by
  rw [fieldR0, getLsbD_alterReg]; rfl

theorem fieldR0_set (r : Word) : fieldR0 (alterReg 23#5 r) = true := by
  rw [fieldR0, getLsbD_alterReg]; rfl

theorem exec_clrR0_hz (s : State) :
    ∃ t, exec .clrR0 s = .next t ∧ (clock t).hz = s.baseClk / ((s.divider * 4 : Nat) : Rat) :=
  ⟨_, exec_controlInstr_eq 22#5 s, hz_of_R0_clear (fieldR0_clear s.reg)⟩

theorem exec_setR0_hz (s : State) :
    ∃ t, exec .setR0 s = .next t ∧ (clock t).hz = s.baseClk / ((s.divider * 2 : Nat) : Rat) :=
  ⟨_, exec_controlInstr_eq 23#5 s, hz_of_R0_set (fieldR0_set s.reg)⟩

/-- Settles O37: the two writes leave the base clock over 4 and over 2 times the divider, and the clock before is one
of the two by R0. -/
theorem clockDoublesWithR0 : Obligations.ClockDoublesWithR0 := by
  intro s hd
  obtain ⟨t, ht, hslow⟩ := exec_clrR0_hz s
  obtain ⟨u, hu, hfast⟩ := exec_setR0_hz s
  refine ⟨t, u, ht, hu, ?_, ?_⟩
  · have hd : (s.divider : Rat) ≠ 0 := Nat.cast_ne_zero.2 hd.ne'
    rw [hslow, hfast]
    push_cast
    field_simp
    norm_num
  · rw [hslow, hfast]
    cases hR0 : fieldR0 s.reg with
    | false => exact .inl (hz_of_R0_clear hR0)
    | true => exact .inr (hz_of_R0_set hR0)

end Sys2Proof.Machine
end

section
/-! The statements about the bus (41_memory_view.md): the decode and the view, the accesses by target, the slots, and
the external-disable line. -/

namespace Sys2Proof.Machine

/-! ### The RAM offset by mode (R141, R143) -/

theorem ramOffset_of_M0 {reg : Word} (hM : fieldM reg = 0#2) (n : Nat) :
    ramOffset reg n = if n ≤ 0x0FFF then some n else none := by
  rw [ramOffset, hM]; rfl

theorem ramOffset_of_M1 {reg : Word} (hM : fieldM reg = 1#2) (n : Nat) :
    ramOffset reg n = if n ≤ 0x3FFF then some n else none := by
  rw [ramOffset, hM]; rfl

theorem ramOffset_of_64K {reg : Word} (hM : 2 ≤ (fieldM reg).toNat) (n : Nat) :
    ramOffset reg n = if fieldP1 reg && decide (n < 0x8000) then some (n + 0x8000) else some n := by
  obtain h | h | h | h := fieldM_cases reg <;> rw [h] at hM
  · exact absurd hM (by decide)
  · exact absurd hM (by decide)
  · rw [ramOffset, h]; rfl
  · rw [ramOffset, h]; rfl

/-- The two modes with a window smaller than 64K. -/
theorem fieldM_of_le_one {reg : Word} (hM : (fieldM reg).toNat ≤ 1) : fieldM reg = 0#2 ∨ fieldM reg = 1#2 := by
  obtain h | h | h | h := fieldM_cases reg
  · exact .inl h
  · exact .inr h
  · exact absurd hM (by rw [h]; decide)
  · exact absurd hM (by rw [h]; decide)

/-- In the 4K and 16K modes the first 4K are the RAM's own. -/
theorem ramOffset_first4K {reg : Word} {n : Nat} (hM : (fieldM reg).toNat ≤ 1) (hn : n ≤ 0x0FFF) :
    ramOffset reg n = some n := by
  obtain h | h := fieldM_of_le_one hM
  · rw [ramOffset_of_M0 h, if_pos hn]
  · rw [ramOffset_of_M1 h, if_pos (by omega)]

/-- In the 4K and 16K modes no RAM lies above the 16K. -/
theorem ramOffset_above16K {reg : Word} {n : Nat} (hM : (fieldM reg).toNat ≤ 1) (hn : 0x4000 ≤ n) :
    ramOffset reg n = none := by
  obtain h | h := fieldM_of_le_one hM
  · rw [ramOffset_of_M0 h, if_neg (by omega)]
  · rw [ramOffset_of_M1 h, if_neg (by omega)]

theorem ramOffset_unpaged {reg : Word} (hM : 2 ≤ (fieldM reg).toNat) (hP : fieldP1 reg = false) (n : Nat) :
    ramOffset reg n = some n := by
  rw [ramOffset_of_64K hM, hP]; rfl

theorem ramOffset_paged {reg : Word} {n : Nat} (hM : 2 ≤ (fieldM reg).toNat) (hP : fieldP1 reg = true)
    (hn : n ≤ 0x7FFF) : ramOffset reg n = some (n + 0x8000) := by
  rw [ramOffset_of_64K hM, hP, if_pos (by simp; omega)]

/-- The page flip leaves the upper half alone (D13). -/
theorem ramOffset_upper {reg : Word} {n : Nat} (hM : 2 ≤ (fieldM reg).toNat) (hn : 0x8000 ≤ n) :
    ramOffset reg n = some n := by
  rw [ramOffset_of_64K hM, if_neg (by simp; omega)]

/-- Settles O23: below 0x8000, and above it under TY, the decode is the RAM offset of the mode through the clamp. -/
theorem busDecodeTable : Obligations.BusDecodeTable := by
  intro a s he
  refine ⟨fun ha hM => ?_, fun hlo ha hM => ?_, fun hlo ha hM => ?_, fun hlo ha hM => ?_, fun ha hM hP => ?_,
    fun ha hM hP => ?_, fun hlo ha hTY => ?_, fun hlo ha hTY hM => ?_, fun hlo ha hTY hM => ?_, fun hlo ha => ?_,
    fun hlo => ?_⟩
  · rw [busDecode_low he (by omega), ramOffset_first4K hM ha, clampRam_some]
  · rw [busDecode_low he ha, ramOffset_of_M0 hM, if_neg (by omega), clampRam]
  · rw [busDecode_low he (by omega), ramOffset_of_M1 hM, if_pos ha, clampRam_some]
  · rw [busDecode_low he ha, ramOffset_of_M1 hM, if_neg (by omega), clampRam]
  · rw [busDecode_low he ha, ramOffset_unpaged hM hP, clampRam_some]
  · rw [busDecode_low he ha, ramOffset_paged hM hP ha, clampRam_some]
  · rw [busDecode_high he hlo ha, if_pos hTY]
  · rw [busDecode_high he hlo ha, hTY, ramOffset_above16K hM (by omega)]; rfl
  · rw [busDecode_high he hlo ha, hTY, ramOffset_upper hM hlo]; rfl
  · exact busDecode_io he hlo ha
  · exact busDecode_vector he hlo

/-- Settles O24: a suppressed view is endc = 1; an active one names the window, and its overlays are by TY and on. -/
theorem theActiveViewDecidesTheBus : Obligations.TheActiveViewDecidesTheBus := by
  intro a s
  refine ⟨fun hview => busDecode_suppressed a (view_suppressed hview), fun v rom io hview => ?_⟩
  refine ⟨fun ha => ?_, fun ⟨hlo, ha, hrom⟩ => ?_, fun ⟨hlo, ha, _⟩ => ?_⟩
  · rw [busDecode_window hview (ha.imp_right fun h => h.2), clampRam_eq]
  · obtain ⟨he, -, hTY, -⟩ := view_active hview
    rw [busDecode_high he hlo ha, if_pos (by simpa [hrom] using hTY)]
  · obtain ⟨he, -, -, -⟩ := view_active hview
    exact busDecode_io he hlo ha

/-! ### The accesses, an equation per target -/

variable {s : State} {a : Word} {off : Nat}

theorem exec_busRd_ram (h : busDecode a s = .ram off) : exec (.busRd a) s = answer (readSlot 0 off s) := by
  change execBusRd a s = _
  rw [execBusRd, h]

theorem exec_busRd_rom (h : busDecode a s = .rom off) :
    exec (.busRd a) s = answer (readSlot (slotOfRom s.wiring off) off s) := by
  change execBusRd a s = _
  rw [execBusRd, h]

theorem exec_busRd_io (h : busDecode a s = .io off) :
    exec (.busRd a) s = answer (readSlot (slotOfIo s.wiring off) off s) := by
  change execBusRd a s = _
  rw [execBusRd, h]

theorem exec_busRd_unmapped (h : busDecode a s = .unmapped) : exec (.busRd a) s = answer (draw s) := by
  change execBusRd a s = _
  rw [execBusRd, h]

theorem exec_busWr_ram (d : Byte) (h : busDecode a s = .ram off) :
    exec (.busWr a d) s = .next (writeSlot 0 off d s) := by
  change execBusWr a d s = _
  rw [execBusWr, h]

theorem exec_busWr_rom (d : Byte) (h : busDecode a s = .rom off) :
    exec (.busWr a d) s = .next (writeSlot (slotOfRom s.wiring off) off d s) := by
  change execBusWr a d s = _
  rw [execBusWr, h]

theorem exec_busWr_io (d : Byte) (h : busDecode a s = .io off) :
    exec (.busWr a d) s = .next (writeSlot (slotOfIo s.wiring off) off d s) := by
  change execBusWr a d s = _
  rw [execBusWr, h]

theorem exec_busWr_unmapped (d : Byte) (h : busDecode a s = .unmapped) : exec (.busWr a d) s = .next s := by
  change execBusWr a d s = _
  rw [execBusWr, h]

theorem answer_readSlot_known {slot : Fin 8} {b : Byte} (h : slotByte slot off s = some b) :
    answer (readSlot slot off s) = .next { s with outputs := s.outputs ++ [.slotRead slot off, .byte b] } := by
  rw [readSlot_known h, answer_eq, State.emit, State.emit_outputs, List.append_assoc]; rfl

theorem answer_readSlot_unknown {slot : Fin 8} (h : slotByte slot off s = none) :
    answer (readSlot slot off s) = .next { s with
      draws := s.draws + 1, outputs := s.outputs ++ [.slotRead slot off, .byte (Config.freeByte s.draws)] } := by
  rw [readSlot_unknown h, answer_eq, State.emit, State.countDraw_outputs, State.emit_outputs, List.append_assoc]; rfl

theorem slotByte_slotOfRom (off : Nat) (s : State) :
    slotByte (slotOfRom s.wiring off) off s = Memory.read s.host.rom off :=
  slotByte_rom off s (slotOfRom_range _ _).1 (slotOfRom_range _ _).2

theorem slotOfIo_ne_zero (w : Wiring) (off : Nat) : (slotOfIo w off).val ≠ 0 := by
  have := slotOfIo_range w off
  omega

theorem slotByte_slotOfIo (off : Nat) (s : State) : slotByte (slotOfIo s.wiring off) off s = none :=
  slotByte_device off s (slotOfIo_range _ _)

/-- Settles O26: the slot of the target answers its known byte, or a draw. -/
theorem busReadByTarget : Obligations.BusReadByTarget := by
  intro a s
  refine ⟨fun off b h hb => ?_, fun off h hb => ?_, fun off b h hb => ?_, fun off h hb => ?_, fun off h => ?_,
    fun h => ?_⟩
  · rw [exec_busRd_ram h, answer_readSlot_known (slotByte_ram off s ▸ hb)]
  · rw [exec_busRd_ram h, answer_readSlot_unknown (slotByte_ram off s ▸ hb)]
  · rw [exec_busRd_rom h, answer_readSlot_known (slotByte_slotOfRom off s ▸ hb)]
  · rw [exec_busRd_rom h, answer_readSlot_unknown (slotByte_slotOfRom off s ▸ hb)]
  · rw [exec_busRd_io h, answer_readSlot_unknown (slotByte_slotOfIo off s)]
  · rw [exec_busRd_unmapped h]; rfl

/-- Settles O27: a write goes to the slot of the target, and slot 0 alone keeps the byte. -/
theorem busWriteByTarget : Obligations.BusWriteByTarget := by
  intro a d s
  refine ⟨fun off h => ?_, fun off h => ?_, fun off h => ?_, fun h => exec_busWr_unmapped d h⟩
  · rw [exec_busWr_ram d h, writeSlot_ram]
  · rw [exec_busWr_rom d h, writeSlot_other _ _ _ (slotOfRom_range _ _).1]
  · rw [exec_busWr_io d h, writeSlot_other _ _ _ (slotOfIo_ne_zero _ _)]

/-- Settles O28: a write that decodes to RAM changes the byte there, and any other write no byte. -/
theorem busWriteFrame : Obligations.BusWriteFrame := by
  intro a d s
  obtain ⟨t, ht, ⟨off, hoff, et⟩ | ⟨hne, et⟩⟩ := execBusWr_cases a d s
  · refine ⟨t, ht, fun off' h => ?_, fun off' h => ?_, exec_busWr_frame ht⟩ <;> rw [et, writeSlot_ram]
    · cases hoff.symm.trans h
      exact Memory.read_write_same s.host.ram off d
    · exact Memory.read_write_other s.host.ram d fun e => h (e ▸ hoff)
  · exact ⟨t, ht, fun off h => absurd h (hne off), fun off _ => by rw [et], exec_busWr_frame ht⟩

/-- A read of RAM after a write of a byte there: the byte is the one written. -/
theorem slotByte_writeSlot_ram (off : Nat) (d : Byte) (s : State) : slotByte 0 off (writeSlot 0 off d s) = some d :=
  Memory.read_write_same s.host.ram off d

/-- Settles O30: the write leaves the decode, so the read asks slot 0 at the offset just written. -/
theorem busReadReturnsTheByteWritten : Obligations.BusReadReturnsTheByteWritten := by
  intro a d s off h
  have h' : busDecode a (writeSlot 0 off d s) = .ram off := (busDecode_congr rfl rfl rfl rfl a).trans h
  have hread := (exec_busRd_ram h').trans (answer_readSlot_known (slotByte_writeSlot_ram off d s))
  exact ⟨_, _, exec_busWr_ram d h, hread, rfl⟩

/-! ### The slots -/

/-- Settles O32: the comparisons with the boundaries, in ascending order. -/
theorem slotBoundaries : Obligations.SlotBoundaries := by
  intro w off
  refine ⟨fun h => ?_, fun h₂ h => ?_, fun h₂ h => ?_, fun h => ?_, fun h₅ h => ?_, fun h₅ h₆ h => ?_,
    fun h₅ h₆ h => ?_⟩
  · rw [slotOfRom, if_pos h]
  · rw [slotOfRom, if_neg (by omega), if_pos h]
  · rw [slotOfRom, if_neg (by omega), if_neg (by omega)]
  · rw [slotOfIo, if_pos h]
  · rw [slotOfIo, if_neg (by omega), if_pos h]
  · rw [slotOfIo, if_neg (by omega), if_neg (by omega), if_pos h]
  · rw [slotOfIo, if_neg (by omega), if_neg (by omega), if_neg (by omega)]

/-! ### The external-disable line -/

theorem exec_endcSet (s : State) : exec .endcSet s = .next (setEndcLine true s) := rfl

theorem exec_endcClr (s : State) : exec .endcClr s = .next (setEndcLine false s) := rfl

theorem setEndcLine_same {v : Bool} (h : s.endc = v) : setEndcLine v s = s := by rw [setEndcLine, if_pos h]

theorem setEndcLine_change {v : Bool} (h : s.endc ≠ v) :
    setEndcLine v s = { s with endc := v, outputs := s.outputs ++ [.install (recompute s.reg s.ramCap v)] } := by
  rw [setEndcLine_eq, if_neg h]

/-- Settles O33: the line at its level does nothing, and a change of level announces the view. -/
theorem endcSetAndClear : Obligations.EndcSetAndClear := by
  intro s
  rw [exec_endcSet, exec_endcClr]
  refine ⟨fun h => ?_, fun h => ?_, fun h => ?_, fun h => ?_⟩
  · rw [setEndcLine_change (by simp [h])]; rfl
  · rw [setEndcLine_same h]
  · rw [setEndcLine_change (by simp [h])]
  · rw [setEndcLine_same h]

@[simp] theorem setEndcLine_endc (v : Bool) (s : State) : (setEndcLine v s).endc = v := by rw [setEndcLine_eq]

@[simp] theorem setEndcLine_reg (v : Bool) (s : State) : (setEndcLine v s).reg = s.reg := by rw [setEndcLine_eq]

@[simp] theorem setEndcLine_ramCap (v : Bool) (s : State) : (setEndcLine v s).ramCap = s.ramCap := by
  rw [setEndcLine_eq]

@[simp] theorem setEndcLine_wiring (v : Bool) (s : State) : (setEndcLine v s).wiring = s.wiring := by
  rw [setEndcLine_eq]

/-- Settles O34: the line changes `endc` alone of what the view and the decode read. -/
theorem endcRoundTripRestoresTheView : Obligations.EndcRoundTripRestoresTheView := by
  intro s he
  refine ⟨_, _, exec_endcSet s, exec_endcClr _, ?_, fun a => ?_, ?_, fun a => ?_⟩
  · rw [view, setEndcLine_endc]; rfl
  · exact busDecode_suppressed a (setEndcLine_endc true s)
  · exact view_congr (by simp) (by simp) (by simp [he])
  · exact busDecode_congr (by simp) (by simp [he]) (by simp) (by simp) a

end Sys2Proof.Machine
end

section
/-! The statements about the Video Address Generator (43_video_address.md): the carry stages, the address requests and
the byte they return. -/

namespace Sys2Proof.Machine

variable {s t : State}

/-! ### The carry stages and the counter -/

theorem ofNat_toNat_add (c : Word) (k : Nat) : BitVec.ofNat 16 (c.toNat + k) = c + BitVec.ofNat 16 k := by
  rw [BitVec.ofNat_add, BitVec.ofNat_toNat, BitVec.setWidth_eq]

theorem ofNat_toNat_sub_of_bit4 {c : Word} (h : c.getLsbD 4 = true) :
    BitVec.ofNat 16 (c.toNat - 0x10) = c - 0x0010#16 := by
  have hle := toNat_of_bit4 h
  have hlt := c.isLt
  apply BitVec.eq_of_toNat_eq
  simp only [BitVec.toNat_ofNat, BitVec.toNat_sub]
  omega

/-- Settles O39: an equation per case, the sums of the counter written as words. -/
theorem carryStages : Obligations.CarryStages := by
  intro s
  refine ⟨carry4_of_lt, fun h => ?_, carry3_of_lt, fun h h4 => ?_, fun h h4 => ?_⟩
  · rw [carry4_of_le h, ofNat_toNat_add]
  · rw [carry3_of_le_of_clear h h4, ofNat_toNat_add]
  · rw [carry3_of_le_of_set h h4, ofNat_toNat_sub_of_bit4 h4]

/-! ### The requests -/

theorem exec_vreqRestart (s : State) : exec .vreqRestart s = answer (videoRead (restartCounter s)) := rfl

theorem exec_vreq (d : BitVec 1) (s : State) : exec (.vreq d) s = answer (videoRead (stepCounter d s)) := rfl

/-- An address request completes; it leaves the counter and the sub-dividers where `restartCounter` or `stepCounter`
puts them, for the video read does not move them. -/
theorem exec_vreqRestart_next (s : State) : ∃ t, exec .vreqRestart s = .next t ∧
    t = { restartCounter s with outputs := t.outputs, draws := t.draws } :=
  answer_videoRead_frame (restartCounter s)

theorem exec_vreq_next (d : BitVec 1) (s : State) : ∃ t, exec (.vreq d) s = .next t ∧
    t = { stepCounter d s with outputs := t.outputs, draws := t.draws } :=
  answer_videoRead_frame (stepCounter d s)

/-- The display offset is 512 times the field F (R27); it never wraps. -/
theorem displayOffset_toNat (r : Word) : (displayOffset r).toNat = (fieldF r).toNat * 512 := by
  have := (fieldF r).isLt
  rw [displayOffset, BitVec.toNat_shiftLeft, BitVec.toNat_setWidth, Nat.shiftLeft_eq]
  omega

/-- Settles O40: the read after the restart changes the outputs and the draw count only. -/
theorem vreqRestartReloadsTheCounter : Obligations.VreqRestartReloadsTheCounter := by
  intro s
  obtain ⟨t, ht, et⟩ := exec_vreqRestart_next s
  refine ⟨t, ht, ?_, ?_, ?_, exec_vreqRestart_frame ht⟩
  · rw [et, restartCounter_eq, displayOffset_toNat]
  · rw [et, restartCounter_eq]
  · rw [et, restartCounter_eq]

/-- Settles O41: by what `stepCounter` does with the low bit and with the nibble's wrap. -/
theorem vreqStepsTheCounter : Obligations.VreqStepsTheCounter := by
  intro d s
  obtain ⟨t, ht, et⟩ := exec_vreq_next d s
  refine ⟨t, ht, exec_vreq_frame ht, fun hd => ?_, fun hd hw => ?_, fun hd hw => ?_⟩ <;> rw [et]
  · rw [stepCounter_same hd]; exact ⟨rfl, rfl, rfl⟩
  · rw [stepCounter_next hd hw]; exact ⟨rfl, rfl, rfl⟩
  · rw [stepCounter_wrap hd hw]; exact ⟨rfl, rfl, rfl⟩

theorem lowNibble_of_wrap {c : Word} (hw : c.toNat % 16 = 15) : (c - 15#16).toNat % 16 = 0 := by
  have := c.isLt
  rw [BitVec.toNat_sub, BitVec.toNat_ofNat]
  omega

/-- The low nibble after `VREQ d` counts the requests that change the low bit, modulo 16: the carries start above
it. -/
theorem stepCounter_lowNibble (d : BitVec 1) (s : State) :
    (stepCounter d s).counter.toNat % 16 =
      (s.counter.toNat % 16 + if d = s.counter.extractLsb' 0 1 then 0 else 1) % 16 := by
  have := s.counter.isLt
  by_cases hd : d = s.counter.extractLsb' 0 1
  · rw [stepCounter_same hd, if_pos hd]
    omega
  · rw [if_neg hd]
    by_cases hw : s.counter.toNat % 16 = 15
    · rw [stepCounter_wrap hd hw, carry3_lowNibble, lowNibble_of_wrap hw, hw]
    · rw [stepCounter_next hd hw, BitVec.toNat_add, BitVec.toNat_ofNat]
      omega

theorem extractLsb_toNat (c : Word) (n : Nat) : (c.extractLsb' 0 n).toNat = c.toNat % 2 ^ n := by
  rw [BitVec.extractLsb'_toNat, Nat.shiftRight_zero]

/-- The difference of two bits as a nibble. -/
theorem xor_bit_toNat (b d : BitVec 1) : ((b ^^^ d).setWidth 4 : Nibble).toNat = if d = b then 0 else 1 := by
  revert b d; decide

/-- Settles O43: both clauses are read off the low nibble, the first from its parity. -/
theorem lowBitFollowsTheRequest : Obligations.LowBitFollowsTheRequest := by
  intro d s
  obtain ⟨t, ht, et⟩ := exec_vreq_next d s
  have hnibble := stepCounter_lowNibble d s
  have hcounter : t.counter = (stepCounter d s).counter := by rw [et]
  refine ⟨t, ht, ?_, ?_⟩ <;> rw [hcounter]
  · have := d.isLt
    rw [eq_comm, eq_lowBit_iff]
    simp only [eq_lowBit_iff] at hnibble
    split at hnibble <;> omega
  · apply BitVec.eq_of_toNat_eq
    rw [BitVec.toNat_add, xor_bit_toNat, extractLsb_toNat, extractLsb_toNat]
    exact hnibble

/-! ### The byte an address request returns -/

/-- An address request reads at some counter, with everything but the counter and the sub-dividers as before. -/
theorem addressRequest_reads {i : Instr} (hi : i = .vreqRestart ∨ ∃ d, i = .vreq d) (s : State) :
    ∃ c x y, exec i s = answer (videoRead { s with counter := c, xdiv := x, ydiv := y }) := by
  obtain rfl | ⟨d, rfl⟩ := hi
  · exact ⟨_, _, _, by rw [exec_vreqRestart, restartCounter_eq]⟩
  · exact ⟨_, _, _, by rw [exec_vreq, stepCounter_frame]⟩

theorem answer_videoRead_suppressed (he : s.endc = true) :
    answer (videoRead s) = .next { s with
      draws := s.draws + 1, outputs := s.outputs ++ [.byte (Config.freeByte s.draws)] } := by
  rw [videoRead_suppressed he]; rfl

theorem answer_videoRead_known {b : Byte} (he : s.endc = false)
    (hb : Memory.read s.host.ram (s.counter.toNat % min (windowSize (fieldM s.reg)) s.ramCap.bytes) = some b) :
    answer (videoRead s) = .next { s with
      outputs := s.outputs ++
        [.slotRead 0 (s.counter.toNat % min (windowSize (fieldM s.reg)) s.ramCap.bytes), .byte b] } := by
  rw [videoRead_ram he, answer_readSlot_known (slotByte_ram _ s ▸ hb)]

theorem answer_videoRead_unknown (he : s.endc = false)
    (hb : Memory.read s.host.ram (s.counter.toNat % min (windowSize (fieldM s.reg)) s.ramCap.bytes) = none) :
    answer (videoRead s) = .next { s with
      draws := s.draws + 1
      outputs := s.outputs ++
        [.slotRead 0 (s.counter.toNat % min (windowSize (fieldM s.reg)) s.ramCap.bytes),
          .byte (Config.freeByte s.draws)] } := by
  rw [videoRead_ram he, answer_readSlot_unknown (slotByte_ram _ s ▸ hb)]

theorem counter_of_answer_videoRead (h : answer (videoRead s) = .next t) : t.counter = s.counter := by
  obtain ⟨u, hu, eu⟩ := answer_videoRead_frame s
  cases hu.symm.trans h
  rw [eu]

/-- Settles O42: under endc a draw, else slot 0 at the masked counter, which the read leaves. -/
theorem videoReadReturnsTheMaskedByte : Obligations.VideoReadReturnsTheMaskedByte := by
  intro i s t hi h
  obtain ⟨c, x, y, hread⟩ := addressRequest_reads hi s
  rw [hread] at h
  refine ⟨fun he => ?_, fun he off hoff => ?_⟩
  · cases (answer_videoRead_suppressed (s := { s with counter := c, xdiv := x, ydiv := y }) he).symm.trans h
    exact ⟨rfl, rfl⟩
  · rw [counter_of_answer_videoRead h] at hoff
    subst hoff
    refine ⟨fun b hb => ?_, fun hb => ?_⟩
    · cases (answer_videoRead_known (s := { s with counter := c, xdiv := x, ydiv := y }) he hb).symm.trans h
      exact ⟨rfl, rfl⟩
    · cases (answer_videoRead_unknown (s := { s with counter := c, xdiv := x, ydiv := y }) he hb).symm.trans h
      exact ⟨rfl, rfl⟩

theorem endc_of_busDecode_ram {a : Word} {off : Nat} (h : busDecode a s = .ram off) : s.endc = false := by
  cases he : s.endc with
  | false => rfl
  | true => cases (busDecode_suppressed a he).symm.trans h

/-- Settles O31: the request that does not move the counter reads slot 0 at the offset just written. -/
theorem videoRequestReturnsTheByteTheCpuWrote : Obligations.VideoRequestReturnsTheByteTheCpuWrote := by
  intro a d s off h hoff
  have he : (writeSlot 0 off d s).endc = false := endc_of_busDecode_ram h
  have hread : exec (.vreq (s.counter.extractLsb' 0 1)) (writeSlot 0 off d s) =
      answer (readSlot 0 off (writeSlot 0 off d s)) := by
    have hstay : stepCounter (s.counter.extractLsb' 0 1) (writeSlot 0 off d s) = writeSlot 0 off d s :=
      stepCounter_same rfl
    rw [exec_vreq, hstay, videoRead_ram he, ← hoff]; rfl
  exact ⟨_, _, exec_busWr_ram d h, hread.trans (answer_readSlot_known (slotByte_writeSlot_ram off d s)), rfl⟩

/-! ### The horizontal sync's other edge -/

/-- Settles O45: HS.FALL answers the state it was given. -/
theorem horizontalSyncFallDoesNothing : Obligations.HorizontalSyncFallDoesNothing := fun _ => rfl

end Sys2Proof.Machine
end

section
/-! The statement that the five elements alone decide the five elements (10_state.md R20). -/

namespace Sys2Proof.Machine

variable {s s' : State}

/-- What was given out and drawn is no element of the chip. -/
theorem SameChip.with_outputs (h : SameChip s s') (os os' : List Output) (n n' : Nat) :
    SameChip { s with outputs := os, draws := n } { s' with outputs := os', draws := n' } := h

theorem carry4_sameChip (h : SameChip s s') : SameChip (carry4 s) (carry4 s') := by
  obtain ⟨hr, he, hc, hx, hy⟩ := h
  unfold carry4
  rw [hr, hc, hy]
  split
  · exact ⟨hr, he, rfl, hx, rfl⟩
  · exact ⟨hr, he, hc, hx, rfl⟩

theorem carry3_sameChip (h : SameChip s s') : SameChip (carry3 s) (carry3 s') := by
  obtain ⟨hr, he, hc, hx, hy⟩ := h
  unfold carry3
  rw [hr, hc, hx]
  split
  · split
    · exact carry4_sameChip ⟨hr, he, rfl, rfl, hy⟩
    · exact ⟨hr, he, rfl, rfl, hy⟩
  · exact ⟨hr, he, hc, rfl, hy⟩

theorem setCounter_sameChip (h : SameChip s s') (c : Word) : SameChip (s.setCounter c) (s'.setCounter c) := by
  obtain ⟨hr, he, -, hx, hy⟩ := h
  exact ⟨hr, he, rfl, hx, hy⟩

theorem stepCounter_sameChip (d : BitVec 1) (h : SameChip s s') : SameChip (stepCounter d s) (stepCounter d s') := by
  have ⟨_, _, hc, _, _⟩ := h
  unfold stepCounter
  rw [hc]
  split
  · exact h
  · split
    · exact carry3_sameChip (setCounter_sameChip h _)
    · exact setCounter_sameChip h _

theorem syncOdd_sameChip (h : SameChip s s') : SameChip (syncOdd s) (syncOdd s') := by
  have ⟨_, _, hc, _, _⟩ := h
  unfold syncOdd
  rw [hc]
  split
  · exact carry3_sameChip (setCounter_sameChip h _)
  · exact setCounter_sameChip h _

theorem syncEven_sameChip (h : SameChip s s') : SameChip (syncEven s) (syncEven s') := by
  have ⟨_, _, hc, _, _⟩ := h
  unfold syncEven
  rw [hc]
  split
  · exact carry4_sameChip (setCounter_sameChip h _)
  · exact setCounter_sameChip h _

theorem syncCounter_sameChip (h : SameChip s s') : SameChip (syncCounter s) (syncCounter s') := by
  have ⟨hr, _, _, _, _⟩ := h
  obtain hV | hV | hV := mode_cases (fieldV s.reg)
  · rw [syncCounter_of_odd hV, syncCounter_of_odd (hr ▸ hV)]; exact syncOdd_sameChip h
  · rw [syncCounter_of_even hV, syncCounter_of_even (hr ▸ hV)]; exact syncEven_sameChip h
  · rw [syncCounter_of_mode7 hV, syncCounter_of_mode7 (hr ▸ hV)]; exact h

/-- Settles O59: by shape, what an operation writes to the five elements it computes from them. -/
theorem theChipDependsOnItsFiveElementsOnly : Obligations.TheChipDependsOnItsFiveElementsOnly := by
  intro i s s' t t' hsame h h'
  have ⟨hr, he, hc, hx, hy⟩ := hsame
  obtain ⟨o, rfl⟩ | ⟨o, rfl⟩ | ⟨a, rfl⟩ | ⟨a, d, rfl⟩ | rfl | rfl | rfl | ⟨d, rfl⟩ | rfl | rfl |
    ⟨c, b, d, host, rfl⟩ | rfl := instr_cases i
  · rw [exec_controlInstr_inv h, exec_controlInstr_inv h']
    exact ⟨congrArg (alterReg o) hr, he, hc, hx, hy⟩
  · rw [exec_ctrlRd_inv h, exec_ctrlRd_inv h']; exact hsame
  · rw [exec_busRd_inv h, exec_busRd_inv h']; exact hsame
  · rw [exec_busWr_frame h, exec_busWr_frame h']; exact hsame
  · rw [exec_endcSet_inv h, exec_endcSet_inv h', setEndcLine_eq, setEndcLine_eq]; exact ⟨hr, rfl, hc, hx, hy⟩
  · rw [exec_endcClr_inv h, exec_endcClr_inv h', setEndcLine_eq, setEndcLine_eq]; exact ⟨hr, rfl, hc, hx, hy⟩
  · rw [exec_vreqRestart_inv h, exec_vreqRestart_inv h', restartCounter_eq, restartCounter_eq]
    exact ⟨hr, he, congrArg displayOffset hr, rfl, rfl⟩
  · rw [exec_vreq_inv h, exec_vreq_inv h']; exact (stepCounter_sameChip d hsame).with_outputs _ _ _ _
  · rw [exec_hsRise_inv h, exec_hsRise_inv h']; exact syncCounter_sameChip hsame
  · rw [exec_hsFall_inv h, exec_hsFall_inv h']; exact hsame
  · obtain ⟨cap, -, -, -, rfl⟩ := exec_attach_eq h
    obtain ⟨cap', -, -, -, rfl⟩ := exec_attach_eq h'
    exact ⟨rfl, rfl, rfl, rfl, rfl⟩
  · rw [exec_reset_inv h, exec_reset_inv h', resetChip_eq, resetChip_eq]; exact ⟨rfl, he, rfl, rfl, rfl⟩

end Sys2Proof.Machine
end

section
/-! The statement about the period of the counter without a sync (43_video_address.md section 6). The state of the
address generator is a number of toggling requests in mixed radix: the low nibble (16), `xdiv` (the x threshold), bit 4
(2) and `ydiv` (the y threshold). Each toggling request adds one, and the carry out of the last digit is the addition of
0x20. -/

namespace Sys2Proof.Machine

/-! ### Sequences of operations -/

theorem execAll_cons {i : Instr} {is : List Instr} {s t : State} (h : exec i s = .next t) :
    execAll (i :: is) s = execAll is t := by
  rw [execAll, h]

theorem execAll_singleton {i : Instr} {s t : State} (h : exec i s = .next t) : execAll [i] s = .next t := by
  rw [execAll_cons h, execAll]

/-- A sequence after one that completes runs from where that one ended. -/
theorem execAll_append {l : List Instr} (l' : List Instr) {s t : State} (h : execAll l s = .next t) :
    execAll (l ++ l') s = execAll l' t := by
  induction l generalizing s with
  | nil => cases h; rfl
  | cons i is ih =>
    rw [List.cons_append]
    cases hi : exec i s with
    | next u => rw [execAll_cons hi] at h ⊢; exact ih h
    | fault f => rw [execAll, hi] at h; cases h
    | refused r => rw [execAll, hi] at h; cases h

theorem togglingRequests_succ (n : Nat) :
    togglingRequests (n + 1) = togglingRequests n ++ [.vreq (BitVec.ofNat 1 (n + 1))] := rfl

/-- One more toggling request after a restart and `m` of them. -/
theorem execAll_requests_succ {m : Nat} {s t u : State}
    (ht : execAll (.vreqRestart :: togglingRequests m) s = .next t)
    (hu : exec (.vreq (BitVec.ofNat 1 (m + 1))) t = .next u) :
    execAll (.vreqRestart :: togglingRequests (m + 1)) s = .next u := by
  rw [togglingRequests_succ, ← List.cons_append, execAll_append _ ht, execAll_singleton hu]

/-! ### The digits -/

/-- `m` toggling requests after a restart under the register `r`, with no addition of 0x20 yet: the counter is on the
display offset's page of 32, the sub-dividers are below their thresholds, and the four digits make `m`. -/
structure Elapsed (r : Word) (m : Nat) (s : State) : Prop where
  reg_eq : s.reg = r
  page : s.counter.toNat / 32 = (displayOffset r).toNat / 32
  xdiv_lt : s.xdiv.toNat < (xThreshold (fieldV r)).toNat
  ydiv_lt : s.ydiv.toNat < (yThreshold (fieldV r)).toNat
  count : m = s.counter.toNat % 16 +
    16 * (s.xdiv.toNat + (xThreshold (fieldV r)).toNat * (s.counter.toNat / 16 % 2 + 2 * s.ydiv.toNat))

/-- The state after the addition of 0x20: the next page, all digits zero. -/
structure NextPage (r : Word) (s : State) : Prop where
  counter_eq : s.counter = displayOffset r + 0x0020#16
  xdiv_eq : s.xdiv = 0#4
  ydiv_eq : s.ydiv = 0#4

/-- The toggling requests of a page: the product of the radices. -/
def period (r : Word) : Nat := 32 * (xThreshold (fieldV r)).toNat * (yThreshold (fieldV r)).toNat

/-- The state that toggling request `m` leaves: the digits make `m`, or `m` completes the page. -/
def Advanced (r : Word) (m : Nat) (s : State) : Prop := Elapsed r m s ∨ (m = period r ∧ NextPage r s)

theorem xThreshold_pos (v : BitVec 3) : 0 < (xThreshold v).toNat := by revert v; decide

theorem yThreshold_pos (v : BitVec 3) : 0 < (yThreshold v).toNat := by revert v; decide

theorem period_pos (r : Word) : 0 < period r :=
  Nat.mul_pos (Nat.mul_pos (by omega) (xThreshold_pos _)) (yThreshold_pos _)

/-- The display offset is a multiple of the page. -/
theorem displayOffset_page (r : Word) : (displayOffset r).toNat % 32 = 0 := by
  rw [displayOffset_toNat]; omega

theorem getLsbD_four (c : Word) : c.getLsbD 4 = decide (c.toNat / 16 % 2 = 1) := by
  rw [BitVec.getLsbD, Nat.testBit_eq_decide_div_mod_eq]

/-- A sub-divider below its threshold counts without wrapping. -/
theorem succ_toNat_of_lt {d t : Nibble} (h : d.toNat < t.toNat) : (d + 1#4).toNat = d.toNat + 1 := by
  have := t.isLt
  rw [BitVec.toNat_add, BitVec.toNat_ofNat]
  omega

theorem sub_fifteen_toNat {c : Word} (h : c.toNat % 16 = 15) : (c - 15#16).toNat = c.toNat - 15 := by
  have := c.isLt
  rw [BitVec.toNat_sub, BitVec.toNat_ofNat]
  omega

variable {r : Word} {m : Nat} {s : State}

theorem Elapsed.with_outputs (h : Elapsed r m s) (os : List Output) (n : Nat) :
    Elapsed r m { s with outputs := os, draws := n } :=
  ⟨h.reg_eq, h.page, h.xdiv_lt, h.ydiv_lt, h.count⟩

/-- The digits make less than the product of the radices. -/
theorem Elapsed.lt (h : Elapsed r m s) : m < period r := by
  obtain ⟨-, -, hx, hy, hm⟩ := h
  unfold period
  generalize (xThreshold (fieldV r)).toNat = X at *
  generalize (yThreshold (fieldV r)).toNat = Y at *
  have hle : X * (s.counter.toNat / 16 % 2 + 2 * s.ydiv.toNat + 1) ≤ X * (2 * Y) :=
    Nat.mul_le_mul_left X (by omega)
  rw [Nat.mul_succ] at hle
  have hprod : 32 * X * Y = 16 * (X * (2 * Y)) := by ring
  omega

/-- The low bit of request `m + 1` is not the counter's. -/
theorem Elapsed.toggles (h : Elapsed r m s) : BitVec.ofNat 1 (m + 1) ≠ s.counter.extractLsb' 0 1 := by
  have hm := h.count
  rw [Ne, eq_lowBit_iff, BitVec.toNat_ofNat]
  omega

theorem restartCounter_elapsed (s : State) : Elapsed s.reg 0 (restartCounter s) := by
  have hpage := displayOffset_page s.reg
  rw [restartCounter_eq]
  refine ⟨rfl, rfl, xThreshold_pos _, yThreshold_pos _, ?_⟩
  simp only [BitVec.toNat_ofNat, show (displayOffset s.reg).toNat % 16 = 0 by omega,
    show (displayOffset s.reg).toNat / 16 % 2 = 0 by omega]
  rfl

/-- The carry out of bit 4, entered at the end of the page with `xdiv` zeroed: `ydiv` counts, or the page ends. -/
theorem carry4_advanced (hreg : s.reg = r) (hcounter : s.counter.toNat / 32 = (displayOffset r).toNat / 32)
    (hlow : s.counter.toNat % 32 = 0) (hx : s.xdiv = 0#4) (hy : s.ydiv.toNat < (yThreshold (fieldV r)).toNat)
    (hm : m = 32 * (xThreshold (fieldV r)).toNat * (s.ydiv.toNat + 1)) :
    Advanced r m (carry4 s) := by
  subst hreg
  have hsucc := succ_toNat_of_lt hy
  by_cases hreach : s.ydiv + 1#4 < yThreshold (fieldV s.reg)
  · rw [carry4_of_lt hreach]
    refine .inl ⟨rfl, hcounter, ?_, hreach, ?_⟩
    · rw [hx]; exact xThreshold_pos _
    · rw [hx, hsucc, hm, show s.counter.toNat % 16 = 0 by omega, show s.counter.toNat / 16 % 2 = 0 by omega,
        BitVec.toNat_ofNat]
      ring
  · rw [carry4_of_le (BitVec.not_lt.1 hreach)]
    have hlast : s.ydiv.toNat + 1 = (yThreshold (fieldV s.reg)).toNat := by
      rw [BitVec.lt_def, hsucc] at hreach
      omega
    have hbase : s.counter = displayOffset s.reg := by
      have := displayOffset_page s.reg
      apply BitVec.eq_of_toNat_eq
      omega
    exact .inr ⟨by rw [hm, hlast, period], by rw [hbase], hx, rfl⟩

/-- The carry out of bit 3, entered with the nibble cleared: `xdiv` counts, or bit 4 is set, or it is cleared with
carry4. -/
theorem carry3_advanced (hreg : s.reg = r) (hcounter : s.counter.toNat / 32 = (displayOffset r).toNat / 32)
    (hlow : s.counter.toNat % 16 = 0) (hx : s.xdiv.toNat < (xThreshold (fieldV r)).toNat)
    (hy : s.ydiv.toNat < (yThreshold (fieldV r)).toNat)
    (hm : m = 16 * (s.xdiv.toNat + 1 + (xThreshold (fieldV r)).toNat * (s.counter.toNat / 16 % 2 + 2 * s.ydiv.toNat))) :
    Advanced r m (carry3 s) := by
  subst hreg
  have hsucc := succ_toNat_of_lt hx
  by_cases hreach : s.xdiv + 1#4 < xThreshold (fieldV s.reg)
  · rw [carry3_of_lt hreach]
    refine .inl ⟨rfl, hcounter, hreach, hy, ?_⟩
    rw [hsucc, hlow, hm, Nat.zero_add]
  · have hlast : s.xdiv.toNat + 1 = (xThreshold (fieldV s.reg)).toNat := by
      rw [BitVec.lt_def, hsucc] at hreach
      omega
    have hle := BitVec.not_lt.1 hreach
    rw [hlast] at hm
    have hlt := s.counter.isLt
    cases h4 : s.counter.getLsbD 4 with
    | false =>
      have hbit : s.counter.toNat / 16 % 2 = 0 := by
        rw [getLsbD_four, decide_eq_false_iff_not] at h4
        omega
      have hset : (s.counter + 0x0010#16).toNat = s.counter.toNat + 16 := by
        rw [BitVec.toNat_add, BitVec.toNat_ofNat]
        omega
      rw [carry3_of_le_of_clear hle h4]
      refine .inl ⟨rfl, ?_, xThreshold_pos _, hy, ?_⟩
      · rw [hset]; omega
      · rw [hset, hm, hbit, show (s.counter.toNat + 16) % 16 = 0 by omega,
          show (s.counter.toNat + 16) / 16 % 2 = 1 by omega, BitVec.toNat_ofNat]
        ring
    | true =>
      have hbit : s.counter.toNat / 16 % 2 = 1 := of_decide_eq_true (getLsbD_four s.counter ▸ h4)
      have hclear : (s.counter - 0x0010#16).toNat = s.counter.toNat - 16 := by
        rw [BitVec.toNat_sub, BitVec.toNat_ofNat]
        omega
      rw [carry3_of_le_of_set hle h4]
      refine carry4_advanced rfl ?_ ?_ rfl hy ?_
      · rw [hclear]; omega
      · rw [hclear]; omega
      · rw [hm, hbit]; ring

/-- One more toggling request: the digits go up by one, or carry into the next page. -/
theorem Elapsed.step (h : Elapsed r m s) :
    Advanced r (m + 1) (stepCounter (BitVec.ofNat 1 (m + 1)) s) := by
  have htoggles := h.toggles
  obtain ⟨hreg, hpage, hx, hy, hm⟩ := h
  have hlt := s.counter.isLt
  by_cases hw : s.counter.toNat % 16 = 15
  · have hsub := sub_fifteen_toNat hw
    rw [stepCounter_wrap htoggles hw]
    refine carry3_advanced hreg ?_ ?_ hx hy ?_
    · rw [hsub]; omega
    · rw [hsub]; omega
    · dsimp only
      rw [hsub, show (s.counter.toNat - 15) / 16 % 2 = s.counter.toNat / 16 % 2 by omega]
      omega
  · have hadd : (s.counter + 1#16).toNat = s.counter.toNat + 1 := by
      rw [BitVec.toNat_add, BitVec.toNat_ofNat]
      omega
    rw [stepCounter_next htoggles hw]
    refine .inl ⟨hreg, ?_, hx, hy, ?_⟩
    · rw [hadd]; omega
    · dsimp only
      rw [hadd, show (s.counter.toNat + 1) / 16 % 2 = s.counter.toNat / 16 % 2 by omega]
      omega

/-! ### The period -/

/-- Before the period is over, the requests complete and have elapsed. -/
theorem execAll_elapsed (s : State) (hm : m < period s.reg) :
    ∃ t, execAll (.vreqRestart :: togglingRequests m) s = .next t ∧ Elapsed s.reg m t := by
  induction m with
  | zero =>
    obtain ⟨t, ht, et⟩ := exec_vreqRestart_next s
    refine ⟨t, execAll_singleton ht, ?_⟩
    rw [et]
    exact (restartCounter_elapsed s).with_outputs _ _
  | succ m ih =>
    obtain ⟨t, ht, hel⟩ := ih (Nat.lt_of_succ_lt hm)
    obtain ⟨u, hu, eu⟩ := exec_vreq_next (BitVec.ofNat 1 (m + 1)) t
    refine ⟨u, execAll_requests_succ ht hu, ?_⟩
    rw [eu]
    exact (hel.step.resolve_right fun ⟨hend, _⟩ => hm.ne hend).with_outputs _ _

/-- Settles O60: by the digits. They cannot make the product of their radices, so the request that completes the product
carries into the next page. -/
theorem periodWithoutSync : Obligations.PeriodWithoutSync := by
  rintro s n (rfl : n = period s.reg)
  refine ⟨fun m hm => ?_, ?_⟩
  · obtain ⟨t, ht, hel⟩ := execAll_elapsed s hm
    exact ⟨t, ht, hel.page⟩
  · obtain ⟨m, hm⟩ := Nat.exists_eq_succ_of_ne_zero (period_pos s.reg).ne'
    obtain ⟨t, ht, hel⟩ := execAll_elapsed s (m := m) (by omega)
    obtain ⟨u, hu, eu⟩ := exec_vreq_next (BitVec.ofNat 1 (m + 1)) t
    obtain hel' | ⟨-, hcounter, hx, hy⟩ := hel.step
    · exact absurd hel'.lt (by omega)
    · rw [hm]
      refine ⟨u, execAll_requests_succ ht hu, ?_⟩
      rw [eu]
      exact ⟨hcounter, hx, hy⟩

end Sys2Proof.Machine
end
